-- ==== Sys2Proof/Word.lean ====
section
/-! DEFINITION. The two widths of the hardware: a byte is 8 bits and a word is 32 bits, both unsigned
(00_scope.md R5, R8). -/

namespace Sys2Proof

/-- A byte: 8 bits, an unsigned integer 0 to 255 (R8). -/
abbrev Byte := BitVec 8

/-- A word: 32 bits, an unsigned integer 0 to 2³² − 1 (R5 `W`, R8). -/
abbrev Word := BitVec 32

end Sys2Proof
end

