-- ==== Sys2Proof/Machine/Bytes.lean ====
section
/-! DEFINITION. Byte sequences and byte order (00_scope.md R10, R11; 20_memory.md R52): little-endian
everywhere, the byte at the lower index is the less significant. -/

namespace Sys2Proof.Machine

/-- The one byte of value `n` (40_param_init.md R100, `bytes8`). -/
def byteOf (n : Nat) : Byte := BitVec.ofNat 8 n

/-- `LE32(b0, b1, b2, b3)` (R11). -/
def le32 (b0 b1 b2 b3 : Byte) : Word :=
  BitVec.ofNat 32 (b0.toNat + 2 ^ 8 * b1.toNat + 2 ^ 16 * b2.toNat + 2 ^ 24 * b3.toNat)

/-- Byte `j` of a word: its bits `8j+7 : 8j` (R11, R53). -/
def wordByte (w : Word) (j : Nat) : Byte := (w >>> (8 * j)).setWidth 8

/-- `bytesLE32(w)` (R11). -/
def bytesLE32 (w : Word) : List Byte := [wordByte w 0, wordByte w 1, wordByte w 2, wordByte w 3]

/-- `bytesLE16(w)` (R11). -/
def bytesLE16 (w : BitVec 16) : List Byte := [w.setWidth 8, (w >>> 8).setWidth 8]

/-- `zeros(n)` (R10). -/
def zeros (n : Nat) : List Byte := List.replicate n 0

/-- `padr(s, n)`: zero-padded on the right to `n` bytes, for a sequence of at most `n` bytes (R10). -/
def padr (s : List Byte) (n : Nat) : List Byte := s ++ zeros (n - s.length)

/-- `bytes(ws)` of the eight state words: `bytesLE32` of each, in order (R11, R78). -/
def stateBytes (h : Vector Word 8) : List Byte := h.toList.flatMap bytesLE32

/-- The `n` bytes of a sequence as a vector; a missing byte is 0. -/
def byteVector (n : Nat) (s : List Byte) : Vector Byte n := Vector.ofFn fun i => s.getD i.val 0

/-- A byte sequence as a block, if it is exactly 64 bytes (20_memory.md R56). -/
def blockOf? (s : List Byte) : Option (Vector Byte 64) :=
  if s.length = 64 then some (byteVector 64 s) else none

end Sys2Proof.Machine
end

