-- ==== Sys2Proof/Config.lean ====
section
/-! DEFINITION. The fixed parameters of the hardware (00_scope.md R5; every one is a constant, none a
model argument) and the free value of the model (log 9). The ROM contents stand in Machine/Rom.lean. -/

namespace Sys2Proof.Config

/-- `BLOCKBYTES`: bytes in one block, the capacity of `buf`, the value BLKSZ reports (R5). -/
abbrev blockBytes : Nat := 64

/-- `OUTBYTES_MAX`: largest output length (R5). -/
abbrev outBytesMax : Nat := 32

/-- `KEYBYTES_MAX`: largest key length (R5). -/
abbrev keyBytesMax : Nat := 32

/-- `SALTBYTES`: salt field length, largest salt operand (R5). -/
abbrev saltBytes : Nat := 8

/-- `PERSBYTES`: personalization field length, largest operand (R5). -/
abbrev persBytes : Nat := 8

/-- The free value, word number `n`: what a read of a transient that has no value answers (log 9; R33, R34: `v` and `m`
have no value between commands), and the bytes of an operand the spec states none for (log 15). Nothing constrains
it. -/
opaque freeWord : Nat → Word

end Sys2Proof.Config
end

