-- ==== Sys2Proof/Syntax.lean ====
section
/-! DEFINITION. The instructions: one constructor per row of spec/opcode_table.json. The six commands
carry the operands of 30_encoding.md R83; the sixteen micro-operations carry the operands their rules
list, less what the rule reads from a register of the state. -/

namespace Sys2Proof

/-- The four rotation amounts, in their order of use in G (00_scope.md R5 `ROT1` … `ROT4`, 10_state.md
R23): no other amount is ever used (42_compress.md R122). -/
inductive RotAmount where
  | rot1
  | rot2
  | rot3
  | rot4
deriving DecidableEq, Repr

/-- The instruction set: commands (30_encoding.md R83) and micro-operations (30_encoding.md R90). -/
inductive Instr where
  /-- INIT (R102). `outlen` is a mathematical integer, the byte sequences have any length (R6, D26). -/
  | init (outlen : Int) (key salt pers : List Byte)
  /-- APPEND (R112). -/
  | append (data : List Byte)
  /-- FINAL (R141). -/
  | final
  /-- BLKSZ (R144). -/
  | blksz
  /-- OUTSZ (R145). -/
  | outsz
  /-- RESET (R146). -/
  | reset
  /-- MARSHAL (R100): the validated fields; `outlen` and `keylen` are one byte each. -/
  | marshal (outlen keylen : Byte) (salt pers : List Byte)
  /-- IVXOR (R101): its operand `P` is the address space PB (R51). -/
  | ivxor
  /-- KEYBLK (R103). -/
  | keyblk (key : List Byte)
  /-- ABSORB1 (R110). -/
  | absorb1 (x : Byte)
  /-- CTRADD (R111): `n` is 0 … 64. -/
  | ctradd (n : Fin 65)
  /-- MSGLOAD (R123): a block of any length, so that `F_BLOCKLEN` can arise. -/
  | msgload (block : List Byte)
  /-- VINIT (R124). -/
  | vinit (h : Vector Word 8) (t0 t1 f0 f1 : Word)
  /-- G (R125). -/
  | g (a b c d x y : Word)
  /-- ROUND (R126): reads and writes `v`, reads `m`. -/
  | round (r : Fin 10)
  /-- FEEDFWD (R128): the state words given to the compression; reads `v`. -/
  | feedfwd (h : Vector Word 8)
  /-- COMPRESS (R129): a block of any length, as for MSGLOAD. -/
  | compress (h : Vector Word 8) (block : List Byte) (t0 t1 f0 f1 : Word)
  /-- PAD (R140): its operands are the live buffer and its fill. -/
  | pad
  /-- EXTRACT (R142). -/
  | extract (h : Vector Word 8) (outlen : BitVec 6)
  /-- ADD32 (R120). -/
  | add32 (a b : Word)
  /-- XOR32 (R121). -/
  | xor32 (a b : Word)
  /-- ROTR32 (R122). -/
  | rotr32 (x : Word) (n : RotAmount)
deriving DecidableEq, Repr

/-- Whether an instruction is one of the six commands, which have a frame (R83, R84); the others are
micro-operations, which have only a label (R90). -/
def Instr.isCommand : Instr → Bool
  | .init _ _ _ _ => true
  | .append _ => true
  | .final => true
  | .blksz => true
  | .outsz => true
  | .reset => true
  | .marshal _ _ _ _ => false
  | .ivxor => false
  | .keyblk _ => false
  | .absorb1 _ => false
  | .ctradd _ => false
  | .msgload _ => false
  | .vinit _ _ _ _ _ => false
  | .g _ _ _ _ _ _ => false
  | .round _ => false
  | .feedfwd _ => false
  | .compress _ _ _ _ _ _ => false
  | .pad => false
  | .extract _ _ => false
  | .add32 _ _ => false
  | .xor32 _ _ => false
  | .rotr32 _ _ => false

end Sys2Proof
end

