-- ==== Sys2Proof/WellFormed.lean ====
section
/-! DEFINITION. Which instructions are well formed: a command whose operands a frame can carry
(30_encoding.md R84), a micro-operation whose operands its rule admits. A command that is well formed
may still be answered with a construction error (30_encoding.md R86 (d)). -/

namespace Sys2Proof

/-- The check, one line per constructor. -/
def Instr.wellFormed : Instr → Bool
  -- R84: OL, KL, SL, PL are unsigned bytes 0 … 255.
  | .init outlen key salt pers =>
    decide (0 ≤ outlen) && decide (outlen ≤ 255) && decide (key.length ≤ 255) && decide (salt.length ≤ 255) &&
      decide (pers.length ≤ 255)
  -- R84: the length n is 0 … 2³² − 1.
  | .append data => decide (data.length < 2 ^ 32)
  | .final => true
  | .blksz => true
  | .outsz => true
  | .reset => true
  -- R100: outlen 1 … 32, keylen 0 … 32, salt and pers at most 8 bytes.
  | .marshal outlen keylen salt pers =>
    decide (1 ≤ outlen.toNat) && decide (outlen.toNat ≤ Config.outBytesMax) && decide (keylen.toNat ≤ Config.keyBytesMax) &&
      decide (salt.length ≤ Config.saltBytes) && decide (pers.length ≤ Config.persBytes)
  | .ivxor => true
  -- R103: a key of 1 to 32 bytes.
  | .keyblk key => decide (1 ≤ key.length) && decide (key.length ≤ Config.keyBytesMax)
  | .absorb1 _ => true
  | .ctradd _ => true
  -- R123: a block of another length is the fault F_BLOCKLEN, not an ill-formed operand.
  | .msgload _ => true
  | .vinit _ _ _ _ _ => true
  | .g _ _ _ _ _ _ => true
  | .round _ => true
  | .feedfwd _ => true
  | .compress _ _ _ _ _ _ => true
  | .pad => true
  -- R142: outlen in 1 … 32.
  | .extract _ outlen => decide (1 ≤ outlen.toNat) && decide (outlen.toNat ≤ Config.outBytesMax)
  | .add32 _ _ => true
  | .xor32 _ _ => true
  | .rotr32 _ _ => true

/-- The check as a proposition. -/
abbrev Instr.WellFormed (i : Instr) : Prop := i.wellFormed = true

end Sys2Proof
end

