-- ==== Sys2Proof/Decode.lean ====
section
/-! DEFINITION. The decoder and, after it, the encoder. Commands have byte frames (30_encoding.md R84,
R86, R87); micro-operations have no host-visible encoding, only a 4-bit label (R90). -/

namespace Sys2Proof

open Machine (byteOf le32 bytesLE32 zeros)

/-- What the decoder reads at the head of the command port's byte stream. -/
inductive Decoded where
  /-- A whole frame: the command it carries and the bytes after it. -/
  | command (i : Instr) (rest : List Byte)
  /-- An opcode byte outside 0x01 … 0x06: a frame of that one byte (R86 (a)). -/
  | illegal (opcode : Byte) (rest : List Byte)
  /-- The stream ends inside a frame. -/
  | incomplete
  /-- The stream is empty. -/
  | empty
deriving DecidableEq, Repr

/-- The INIT frame after its opcode byte: OL, KL, SL, PL, then the key, salt and personalization bytes
(R84, R87). -/
def decodeInit : List Byte → Decoded
  | ol :: kl :: sl :: pl :: payload =>
    if kl.toNat + sl.toNat + pl.toNat ≤ payload.length then
      .command
        (.init ol.toNat (payload.take kl.toNat) ((payload.drop kl.toNat).take sl.toNat)
          ((payload.drop (kl.toNat + sl.toNat)).take pl.toNat))
        (payload.drop (kl.toNat + sl.toNat + pl.toNat))
    else .incomplete
  | _ => .incomplete

/-- The APPEND frame after its opcode byte: n as four bytes little-endian, then n data bytes (R84, R87). -/
def decodeAppend : List Byte → Decoded
  | n0 :: n1 :: n2 :: n3 :: payload =>
    if (le32 n0 n1 n2 n3).toNat ≤ payload.length then
      .command (.append (payload.take (le32 n0 n1 n2 n3).toNat)) (payload.drop (le32 n0 n1 n2 n3).toNat)
    else .incomplete
  | _ => .incomplete

/-- The decoder of the command port, total on any bytes (R84, R86, R87). -/
def decodeFrame : List Byte → Decoded
  | [] => .empty
  | op :: rest =>
    match op.toNat with
    | 1 => decodeInit rest
    | 2 => decodeAppend rest
    | 3 => .command .final rest
    | 4 => .command .blksz rest
    | 5 => .command .outsz rest
    | 6 => .command .reset rest
    | _ => .illegal op rest

/-- The micro-operation a label names (R90). A label carries no operands: each operand is the least
value the operation's rule admits (log 11). -/
def decodeLabel (code : BitVec 4) : Instr :=
  match code.toNat with
  | 0x0 => .marshal 1 0 [] []
  | 0x1 => .ivxor
  | 0x2 => .keyblk [0]
  | 0x3 => .absorb1 0
  | 0x4 => .ctradd 0
  | 0x5 => .msgload (zeros 64)
  | 0x6 => .vinit (Vector.replicate 8 0) 0 0 0 0
  | 0x7 => .g 0 0 0 0 0 0
  | 0x8 => .round 0
  | 0x9 => .feedfwd (Vector.replicate 8 0)
  | 0xA => .compress (Vector.replicate 8 0) (zeros 64) 0 0 0 0
  | 0xB => .pad
  | 0xC => .extract (Vector.replicate 8 0) 1
  | 0xD => .add32 0 0
  | 0xE => .xor32 0 0
  | _ => .rotr32 0 .rot1

/-- The two kinds of encoding of 30_encoding.md: a command frame, a micro-operation label. -/
inductive Encoding where
  | frame (bytes : List Byte)
  | label (code : BitVec 4)
deriving DecidableEq, Repr

/-- The decoder of both kinds. -/
def decode : Encoding → Decoded
  | .frame bytes => decodeFrame bytes
  | .label code => .command (decodeLabel code) []

/-- The encoder: the frame of a command (R84), the label of a micro-operation (R90). -/
def encode : Instr → Encoding
  | .init outlen key salt pers =>
    .frame ([0x01, BitVec.ofInt 8 outlen, byteOf key.length, byteOf salt.length, byteOf pers.length] ++ key ++ salt ++ pers)
  | .append data => .frame ([0x02] ++ bytesLE32 (BitVec.ofNat 32 data.length) ++ data)
  | .final => .frame [0x03]
  | .blksz => .frame [0x04]
  | .outsz => .frame [0x05]
  | .reset => .frame [0x06]
  | .marshal _ _ _ _ => .label 0x0
  | .ivxor => .label 0x1
  | .keyblk _ => .label 0x2
  | .absorb1 _ => .label 0x3
  | .ctradd _ => .label 0x4
  | .msgload _ => .label 0x5
  | .vinit _ _ _ _ _ => .label 0x6
  | .g _ _ _ _ _ _ => .label 0x7
  | .round _ => .label 0x8
  | .feedfwd _ => .label 0x9
  | .compress _ _ _ _ _ _ => .label 0xA
  | .pad => .label 0xB
  | .extract _ _ => .label 0xC
  | .add32 _ _ => .label 0xD
  | .xor32 _ _ => .label 0xE
  | .rotr32 _ _ => .label 0xF

/-- The bytes of a command's frame (R84); a micro-operation has none. -/
def frameOf (i : Instr) : List Byte :=
  match encode i with
  | .frame bytes => bytes
  | .label _ => []

/-- The low `k` bytes of a number, byte 0 first: how the table numbers an instruction's bits. -/
def tableBytes (w : Nat) : Nat → List Byte
  | 0 => []
  | k + 1 => byteOf w :: tableBytes (w / 256) k

/-- The longest header with its largest payload an INIT frame can have (R87): the bits above `nbits` that
are read as zero. -/
abbrev tableZeros : Nat := 5 + 3 * 255

/-- What an opcode-table word of `nbits` bits is (log 12): of fewer than 8 bits, a micro-operation label;
of 8 or more, a command frame, zero bytes standing for what the table gives no bits; and where one byte
is no command's opcode, the label it holds if it is below 16. -/
def readTableWord (nbits w : Nat) : Option (Instr × List Byte) :=
  if nbits < 8 then (if w < 16 then some (decodeLabel (BitVec.ofNat 4 w), []) else none)
  else
    let bytes := tableBytes w (nbits / 8) ++ zeros tableZeros
    match decodeFrame bytes with
    | .command i rest => some (i, bytes.take (bytes.length - rest.length))
    | .illegal _ _ => if nbits = 8 ∧ w < 16 then some (decodeLabel (BitVec.ofNat 4 w), []) else none
    | .incomplete => none
    | .empty => none

/-- The instruction the decoder reads from an opcode-table word. -/
def decodeTableWord (nbits w : Nat) : Option Instr := (readTableWord nbits w).map (·.1)

end Sys2Proof
end

