-- ==== Sys2Proof/Machine/State.lean ====
section
/-! DEFINITION. The state of the machine as plain data (10_state.md), the reasons a step can stop, the
responses and error codes, and the state after power-on reset. -/

namespace Sys2Proof.Machine

/-- The lifecycle status register `st` (R31). -/
inductive Status where
  /-- No engine has been produced. -/
  | empty
  /-- An engine exists. -/
  | ready
  /-- An internal-invariant fault or an unsupported operation has occurred. -/
  | faulted
deriving DecidableEq, Repr

/-- The errors the hardware reports in a response (60_exceptions.md R150). None stops the model: each is
a next state with the response sent. -/
inductive ErrorCode where
  | outLen
  | keyLen
  | saltLen
  | persLen
  | blockLen
  | finalFlag
  | unsupported
  | notReady
  | illCmd
  | faulted
deriving DecidableEq, Repr

/-- A response: every command ends with exactly one (00_scope.md R15). -/
inductive Response where
  | ok
  | count (n : Nat)
  | bytes (s : List Byte)
  | size (n : Nat)
  | err (code : ErrorCode)
deriving DecidableEq, Repr

/-- BUF as data: (address, byte) cells with addresses strictly rising and no cell equal to what an
unlisted address reads as. -/
abbrev Memory := List Host.Cell

/-- What an unlisted cell of BUF reads as (log 2, DESIGN CHOICE, unsafe: the spec gives the cells no value
after power-on). -/
def Memory.unlisted : Byte := 0

/-- The canonical form: addresses strictly rising and below 64 (R28, 20_memory.md R50), no cell equal to
`Memory.unlisted`. -/
def Memory.wf : Memory → Bool
  | [] => true
  | (a, x) :: rest => decide (a < 64) && decide (x ≠ Memory.unlisted) && rest.all (fun c => decide (a < c.1)) && Memory.wf rest

/-- The live registers of the engine (10_state.md R25 to R30; "Live state" in the glossary). -/
structure Live where
  /-- The chaining value `h[0..7]` (R25). -/
  h : Vector Word 8
  /-- Low word of the byte counter (R26). -/
  t0 : Word
  /-- High word of the byte counter (R26). -/
  t1 : Word
  /-- Last-block flag word (R27). -/
  f0 : Word
  /-- The flag word no rule sets (R27). -/
  f1 : Word
  /-- The input buffer `buf[0..63]` (R28). -/
  buf : Memory
  /-- The number of pending bytes, 0 to 64 (R29). -/
  buflen : BitVec 7
  /-- The output length, 1 to 32 once constructed (R30). -/
  outlen : BitVec 6
deriving DecidableEq, Repr

/-- The value a pure micro-operation hands back to its caller (log 10): the model's own. -/
inductive UopValue where
  /-- ADD32, XOR32, ROTR32. -/
  | word (w : Word)
  /-- G. -/
  | quad (a b c d : Word)
  /-- FEEDFWD, COMPRESS: `h'`. -/
  | words (h : Vector Word 8)
  /-- PAD: `blk`. -/
  | block (b : Vector Byte 64)
  /-- EXTRACT: `digest`. -/
  | digest (s : List Byte)
deriving DecidableEq, Repr

/-- The state of the machine. -/
structure State where
  /-- The lifecycle status (R31). -/
  st : Status
  /-- The live registers (R25 to R30). -/
  live : Live
  /-- The address space PB: the serialized parameter block, alive inside INIT only (R32). -/
  pb : Option (Vector Byte 32)
  /-- The working vector, alive inside one COMPRESS (R33). -/
  v : Option (Vector Word 16)
  /-- The message words, alive inside one COMPRESS (R34). -/
  m : Option (Vector Word 16)
  /-- What the last pure micro-operation handed back (log 10, the model's own). -/
  ret : Option UopValue
  /-- The sequencer: the micro-operation it stands at, none when idle (R37, log 7). -/
  seq : Option Instr
  /-- The command port: the bytes the host has sent and the core has not taken, first byte first (R50
  `IN`, R84). Bytes after a frame are a second command in flight, which has no step (R180, log 4). -/
  input : List Byte
  /-- The frames the host goes on to send, each only after the response to the one before (R180): the host's
  side of the command port, the model's own (log 4). -/
  plan : List (List Byte)
  /-- The response port: the bytes of the response frames sent so far, first byte first (R50 `OUT`, R85,
  log 5). -/
  output : List Byte
  /-- How many free values have been drawn (log 9, the model's own). -/
  draws : Nat
deriving DecidableEq, Repr

/-- The reasons the machine stops with a fault. -/
inductive Fault where
  /-- A byte of BUF at an index of 64 or more was to be read or written: the space has 64 cells (20_memory.md
  R50). Raised by ABSORB1, KEYBLK, APPEND, PAD and FINAL in a state whose `buflen` is above 64, which no
  command leads to (R29, R40 (a)). Safe: the model stops and claims nothing (log 14). -/
  | noSuchCell
deriving DecidableEq, Repr

/-- The reasons the machine has no step. -/
inductive Refusal where
  /-- An instruction whose meaning is not written. Raised by no arm of this model. Safe. -/
  | notModelled (mnemonic : String)
  /-- Raised by a step when the sequencer is idle, the command port holds no byte and the host plans to send none:
  there is no command to run (00_scope.md R7). Safe (log 6). -/
  | noCommand
  /-- Raised by a step when the command port ends inside a frame: the command has not been issued yet
  (30_encoding.md R87). Safe (log 6). -/
  | incompleteFrame
  /-- Raised by a step when bytes follow the first frame at the command port: a second command was issued before
  the response to the first (20_memory.md R64, 70_reset_and_hazards.md R180). Safe (log 4). -/
  | commandInFlight
deriving DecidableEq, Repr

/-- The live registers after power-on. The spec leaves all of them unspecified (R41, R175); each holds the
value log 1 names (DESIGN CHOICE, unsafe). -/
def Live.reset : Live :=
  { h := Vector.replicate 8 0, t0 := 0, t1 := 0, f0 := 0, f1 := 0, buf := [], buflen := 0, outlen := 0 }

/-- The machine after power-on reset: `st` is EMPTY (70_reset_and_hazards.md R175), the transients have no
value and the sequencer is idle (R41), no byte has been sent either way and the host plans to send none. -/
def State.reset : State :=
  { st := .empty, live := Live.reset, pb := none, v := none, m := none, ret := none, seq := none,
    input := [], plan := [], output := [], draws := 0 }

end Sys2Proof.Machine
end

