-- ==== Sys2Proof/Machine/Ops.lean ====
section
/-! DEFINITION. The named operations the meanings share: reads and writes of BUF, the word operators, the
mixing function, the response frames, raising an error, dispatch, and what a step fetches. -/

namespace Sys2Proof.Machine

/-! ### BUF (20_memory.md R50, R54) -/

/-- The byte in cell `a` of BUF. -/
def Memory.read : Memory → Nat → Byte
  | [], _ => Memory.unlisted
  | (k, x) :: rest, a => if k = a then x else Memory.read rest a

/-- Write byte `x` to cell `a`, keeping the canonical form. -/
def Memory.write : Memory → Nat → Byte → Memory
  | [], a, x => if x = Memory.unlisted then [] else [(a, x)]
  | (k, y) :: rest, a, x =>
    if a < k then (if x = Memory.unlisted then (k, y) :: rest else (a, x) :: (k, y) :: rest)
    else if a = k then (if x = Memory.unlisted then rest else (a, x) :: rest)
    else (k, y) :: Memory.write rest a x

/-- The 64 cells of BUF as a block (R58: the whole block is read at once). -/
def Memory.block (b : Memory) : Vector Byte 64 := Vector.ofFn fun i => b.read i.val

/-! ### Word operators (42_compress.md R120 to R122) -/

/-- `ADD32` (R120): wraps, the carry is lost. -/
def add32 (a b : Word) : Word := a + b

/-- `XOR32` (R121). -/
def xor32 (a b : Word) : Word := a ^^^ b

/-- The number of places of a rotation amount (R23). -/
def rotPlaces : RotAmount → Nat
  | .rot1 => 16
  | .rot2 => 12
  | .rot3 => 8
  | .rot4 => 7

/-- `ROTR32` (R122): bit `i` of the result is bit `(i + n) mod 32` of the operand. -/
def rotr32 (x : Word) (n : RotAmount) : Word := (x >>> rotPlaces n) ||| (x <<< (32 - rotPlaces n))

/-! ### The compression function (42_compress.md R123 to R129) -/

/-- `MSGLOAD` of a block of exactly 64 bytes (R123, R74). -/
def msgWords (b : Vector Byte 64) : Vector Word 16 :=
  Vector.ofFn fun k => le32 b[4 * k.val] b[4 * k.val + 1] b[4 * k.val + 2] b[4 * k.val + 3]

/-- `VINIT` (R124, R77). -/
def initVector (h : Vector Word 8) (t0 t1 f0 f1 : Word) : Vector Word 16 :=
  #v[h[0], h[1], h[2], h[3], h[4], h[5], h[6], h[7], iv[0], iv[1], iv[2], iv[3],
     xor32 iv[4] t0, xor32 iv[5] t1, xor32 iv[6] f0, xor32 iv[7] f1]

/-- The four words G answers. -/
structure Mixed where
  a : Word
  b : Word
  c : Word
  d : Word
deriving DecidableEq, Repr

/-- The first half of G: steps 1 to 4 with message word `x` and amounts 16, 12; the second half is the same
four steps with `y` and amounts 8, 7 (R125). -/
def mixHalf (q : Mixed) (x : Word) (n n' : RotAmount) : Mixed :=
  let a := add32 (add32 q.a q.b) x
  let d := rotr32 (xor32 q.d a) n
  let c := add32 q.c d
  let b := rotr32 (xor32 q.b c) n'
  ⟨a, b, c, d⟩

/-- `G` (R125): eight steps, each using the values the earlier steps produced. -/
def mixG (a b c d x y : Word) : Mixed := mixHalf (mixHalf ⟨a, b, c, d⟩ x .rot1 .rot2) y .rot3 .rot4

/-- The four words of `v` a quadruple selects are replaced by those of G (R126). -/
def writeQuad (v : Vector Word 16) (q : Quad) (o : Mixed) : Vector Word 16 :=
  (((v.set q.a o.a).set q.b o.b).set q.c o.c).set q.d o.d

/-- Application `i` of round `r`: the quadruple `QUAD[i]` with message words `SIGMA[r][2i]` and
`SIGMA[r][2i+1]` (R126). -/
def mixAt (r : Fin 10) (m : Vector Word 16) (v : Vector Word 16) (i : Fin 8) : Vector Word 16 :=
  let q := quads[i]
  writeQuad v q (mixG v[q.a] v[q.b] v[q.c] v[q.d] m[sigma[r][2 * i.val]] m[sigma[r][2 * i.val + 1]])

/-- `ROUND(r)`: applications 0 to 7 in order (R126). -/
def mixRound (m : Vector Word 16) (v : Vector Word 16) (r : Fin 10) : Vector Word 16 :=
  [0, 1, 2, 3, 4, 5, 6, 7].foldl (mixAt r m) v

/-- The ten rounds in order (R129 step 3). -/
def mixRounds (m : Vector Word 16) (v : Vector Word 16) : Vector Word 16 :=
  [0, 1, 2, 3, 4, 5, 6, 7, 8, 9].foldl (mixRound m) v

/-- `FEEDFWD` (R128). -/
def feedForward (h : Vector Word 8) (v : Vector Word 16) : Vector Word 8 :=
  Vector.ofFn fun i => xor32 (xor32 h[i] v[i.val]) v[i.val + 8]

/-- `COMPRESS` of a block of exactly 64 bytes (R129): a function of its operands and nothing else. -/
def compressBlock (h : Vector Word 8) (b : Vector Byte 64) (t0 t1 f0 f1 : Word) : Vector Word 8 :=
  feedForward h (mixRounds (msgWords b) (initVector h t0 t1 f0 f1))

/-! ### Responses and errors (30_encoding.md R85, 60_exceptions.md R150) -/

/-- The code of an error (R150). -/
def ErrorCode.number : ErrorCode → Byte
  | .outLen => 0x01
  | .keyLen => 0x02
  | .saltLen => 0x03
  | .persLen => 0x04
  | .blockLen => 0x05
  | .finalFlag => 0x06
  | .unsupported => 0x07
  | .notReady => 0x08
  | .illCmd => 0x09
  | .faulted => 0x0A

/-- The fatal errors (R158); the others are non-fatal (R157). -/
def ErrorCode.fatal : ErrorCode → Bool
  | .blockLen => true
  | .finalFlag => true
  | .unsupported => true
  | .outLen => false
  | .keyLen => false
  | .saltLen => false
  | .persLen => false
  | .notReady => false
  | .illCmd => false
  | .faulted => false

/-- The response frame (R85): a status byte, then the payload. -/
def Response.frame : Response → List Byte
  | .ok => [0x00]
  | .count n => 0x00 :: bytesLE32 (BitVec.ofNat 32 n)
  | .bytes s => 0x00 :: s
  | .size n => [0x00, byteOf n]
  | .err code => [code.number]

/-- Send a response: nothing else changes. -/
def State.respond (s : State) (r : Response) : State := { s with output := s.output ++ r.frame }

/-- Raise an error (R13, R157, R158), the one shared operation: the response is `Err(code)`; a fatal error
also makes the engine FAULTED; no other register changes. -/
def raiseError (code : ErrorCode) (s : State) : State :=
  ({ s with st := if code.fatal then .faulted else s.st }).respond (.err code)

/-- The transients lose their values (R41: none outside the command that uses them; log 8). -/
def State.endTransients (s : State) : State := { s with pb := none, v := none, m := none, ret := none }

/-- A compression has ended: `v`, read by FEEDFWD, is dead (R33), and so is `m`, which lives inside the COMPRESS that
FEEDFWD ends (R34; log 8). -/
def State.endCompression (s : State) : State := { s with v := none, m := none }

/-- Whether absorbing `n` bytes compresses a deferred block: with the pending ones they are more than 64 (R110, R112). -/
def Live.compresses (l : Live) (n : Nat) : Bool := decide (64 < l.buflen.toNat + n)

/-- The state in which ABSORB1 of `n` bytes has left the live registers `l`: a compression on the way ends as any
(R110 step 1; log 8). -/
def State.absorbed (s : State) (n : Nat) (l : Live) : State :=
  if s.live.compresses n then ({ s with live := l }).endCompression else { s with live := l }

/-- Dispatch of a command (R153 steps 1 and 3): FAULTED first, then EMPTY for every command but INIT. -/
def dispatch (needsEngine : Bool) (s : State) (run : State → Host.Outcome State Fault Refusal) :
    Host.Outcome State Fault Refusal :=
  match s.st with
  | .faulted => .next (raiseError .faulted s)
  | .empty => if needsEngine then .next (raiseError .notReady s) else run s
  | .ready => run s

/-- An illegal opcode byte (R153 steps 1 and 2, R86 (a)). -/
def illegalOpcode (s : State) : State :=
  match s.st with
  | .faulted => raiseError .faulted s
  | .empty => raiseError .illCmd s
  | .ready => raiseError .illCmd s

/-! ### Free values (log 9, log 15) -/

/-- Free byte number `n`. -/
def freeByte (n : Nat) : Byte := wordByte (Config.freeWord n) 0

/-- `k` free bytes, from number `n` on. -/
def freeBytes (n k : Nat) : List Byte := (List.range k).map fun i => freeByte (n + i)

/-- Sixteen free words, from number `n` on. -/
def freeWords (n : Nat) : Vector Word 16 := Vector.ofFn fun i => Config.freeWord (n + i.val)

/-- The working vector: its value, or a free value when it has none. -/
def State.readV (s : State) : Vector Word 16 := s.v.getD (freeWords s.draws)

/-- The message words: their value, or a free value when they have none. -/
def State.readM (s : State) : Vector Word 16 := s.m.getD (freeWords (s.draws + 16))

/-- The bytes of PB: their value, or free bytes when they have none. -/
def State.readPB (s : State) : Vector Byte 32 :=
  s.pb.getD (Vector.ofFn fun i => freeByte (s.draws + i.val))

/-- The counter of free values after a draw of at most `k` of them. -/
def State.drawIf (s : State) (drawn : Bool) (k : Nat) : Nat := if drawn then s.draws + k else s.draws

/-! ### What a step fetches (log 4, log 6, log 7) -/

/-- What the command port holds when a step starts: the bytes already there, or else the next frame of the host,
which has the response to the one before (R180). -/
def State.port (s : State) : List Byte :=
  match s.input with
  | [] => s.plan.headD []
  | b :: bs => b :: bs

/-- The state with all bytes of the port taken. -/
def State.taken (s : State) : State :=
  match s.input with
  | [] => { s with plan := s.plan.tail }
  | _ :: _ => { s with input := [] }

/-- What stands to be run next. -/
inductive Fetched where
  /-- Run this instruction in this state. -/
  | run (i : Instr) (s : State)
  /-- The host sent an illegal opcode byte, which has been taken. -/
  | illegal (s : State)
  /-- There is nothing to run. -/
  | nothing (why : Refusal)

/-- What a step runs: the micro-operation the sequencer stands at, or else the command frame at the command
port, whose bytes are all taken, whatever becomes of the command (30_encoding.md R84). Bytes after the frame are a
second command in flight: no step (20_memory.md R64, 70_reset_and_hazards.md R180). -/
def fetch (s : State) : Fetched :=
  match s.seq with
  | some i => .run i { s with seq := none }
  | none =>
    match decodeFrame s.port with
    | .command i [] => .run i s.taken
    | .illegal _ [] => .illegal s.taken
    | .command _ (_ :: _) => .nothing .commandInFlight
    | .illegal _ (_ :: _) => .nothing .commandInFlight
    | .incomplete => .nothing .incompleteFrame
    | .empty => .nothing .noCommand

/-- The state with an opcode-table word where the next step fetches: a command frame alone at the command port, a
micro-operation at the sequencer (log 12, log 13). -/
def placeWord (s : State) (nbits w : Nat) : State :=
  match readTableWord nbits w with
  | some (i, bytes) => if i.isCommand then { s with seq := none, input := bytes } else { s with seq := some i }
  | none => { s with seq := none, input := tableBytes w (nbits / 8) }

end Sys2Proof.Machine
end

