-- ==== Sys2Proof/Machine/Flags.lean ====
section
/-! DEFINITION. The flag words and the one carry of the hardware: the last-block flag (30_encoding.md R76)
and the carry of the byte counter from `t0` into `t1` (41_append.md R111). No operation writes any other
flag (42_compress.md R120: the carry out of ADD32 is recorded nowhere). -/

namespace Sys2Proof.Machine

/-- `FLAG_LAST`: the value of `f0` inside a finalize computation (R5, R76). -/
def flagLast : Word := 0xFFFFFFFF

/-- The carry out of the low word, recomputed by comparison from the sum and the amount added (R111). -/
def carryOut (sum n : Word) : Bool := decide (sum < n)

/-- `CTRADD(n)` on a counter `(t0, t1)` (R111). -/
def counterAdd (t0 t1 n : Word) : Word × Word :=
  (add32 t0 n, if carryOut (add32 t0 n) n then add32 t1 1 else t1)

end Sys2Proof.Machine
end

