-- ==== Sys2Proof/Machine/Operands.lean ====
section
/-! DEFINITION. The operand forms: the operand checks of INIT (40_param_init.md R102), the assembly of the
parameter block and of the key block (30_encoding.md R70 to R73), the padded last block and the digest
(43_finalize.md R140, R142), and the block sequencer's operations on the live registers (41_append.md
R110), which the meanings share. -/

namespace Sys2Proof.Machine

/-- The operand checks of INIT, in the order of R102 steps 1 to 4 (R152, R156): the first that fails. -/
def constructionError (outlen : Int) (key salt pers : List Byte) : Option ErrorCode :=
  if outlen ≤ 0 ∨ outlen > Config.outBytesMax then some .outLen
  else if key.length > Config.keyBytesMax then some .keyLen
  else if salt.length > Config.saltBytes then some .saltLen
  else if pers.length > Config.persBytes then some .persLen
  else none

/-- The 32 bytes of `P`, field by field (R100, R70). -/
def marshalBytes (outlen keylen : Byte) (salt pers : List Byte) : List Byte :=
  [outlen, keylen, 0x01, 0x01] ++ bytesLE32 0 ++ bytesLE32 0 ++ bytesLE16 0 ++ [0x00, 0x00]
    ++ padr salt Config.saltBytes ++ padr pers Config.persBytes

/-- `MARSHAL` of validated fields (R100). -/
def marshal (outlen keylen : Byte) (salt pers : List Byte) : Vector Byte 32 :=
  byteVector 32 (marshalBytes outlen keylen salt pers)

/-- Word `i` of a serialized parameter block (R72). -/
def paramWord (p : Vector Byte 32) (i : Fin 8) : Word :=
  le32 p[4 * i.val] p[4 * i.val + 1] p[4 * i.val + 2] p[4 * i.val + 3]

/-- `IVXOR(P)` (R101). -/
def ivXor (p : Vector Byte 32) : Vector Word 8 := Vector.ofFn fun i => xor32 iv[i] (paramWord p i)

/-- The key block (R73). -/
def keyBlock (key : List Byte) : List Byte := padr key Config.blockBytes

/-- A field operand of MARSHAL: its bytes, or, where it has more than the 8 the rule admits, 8 free bytes from
number `n` on (log 15: R100 and `padr` of R10 state no field there). -/
def fieldOperand (field : List Byte) (n : Nat) : List Byte := if field.length ≤ 8 then field else freeBytes n 8

/-- Whether a key is in the domain of KEYBLK (R103, R73). -/
def keyInDomain (key : List Byte) : Bool := decide (1 ≤ key.length) && decide (key.length ≤ Config.keyBytesMax)

/-- The key block KEYBLK absorbs: that of R73, or, for a key R73 gives no key block, 64 free bytes from number `n`
on (log 15). -/
def keyBlockOperand (key : List Byte) (n : Nat) : List Byte :=
  if keyInDomain key then keyBlock key else freeBytes n Config.blockBytes

/-- The live registers after the deferred block is compressed as an interior block (R110 step 1): the counter
first, then the compression with it. -/
def Live.compressDeferred (l : Live) : Live :=
  let t := counterAdd l.t0 l.t1 64
  { l with h := compressBlock l.h l.buf.block t.1 t.2 l.f0 l.f1, t0 := t.1, t1 := t.2, buflen := 0 }

/-- Store one byte at `buf[buflen]` and count it (R110 steps 2 and 3, R54). -/
def Live.store (l : Live) (x : Byte) : Except Fault Live :=
  if l.buflen.toNat < 64 then .ok { l with buf := l.buf.write l.buflen.toNat x, buflen := l.buflen + 1 }
  else .error .noSuchCell

/-- `ABSORB1(x)` on the live registers (R110). -/
def Live.absorb1 (l : Live) (x : Byte) : Except Fault Live :=
  if l.buflen = 64 then l.compressDeferred.store x else l.store x

/-- `ABSORB1` of each byte in order (R112). -/
def Live.absorb : Live → List Byte → Except Fault Live
  | l, [] => .ok l
  | l, x :: xs =>
    match l.absorb1 x with
    | .ok l' => l'.absorb xs
    | .error f => .error f

/-- `PAD(buf, buflen)` (R140): the pending bytes, then zeros. -/
def Live.pad (l : Live) : Except Fault (Vector Byte 64) :=
  if l.buflen.toNat ≤ 64 then .ok (Vector.ofFn fun i => if i.val < l.buflen.toNat then l.buf.read i.val else 0)
  else .error .noSuchCell

/-- `EXTRACT(H, outlen)` (R142, R78). -/
def extractBytes (h : Vector Word 8) (outlen : BitVec 6) : List Byte := (stateBytes h).take outlen.toNat

/-- The scratch copy FINAL computes on (R35); it exists inside FINAL only. -/
structure Scratch where
  h : Vector Word 8
  t0 : Word
  t1 : Word
  f0 : Word
  f1 : Word
  blk : Vector Byte 64
deriving DecidableEq, Repr

/-- The scratch copy with which FINAL compresses the last block (R141 steps 2 to 5). -/
def Live.scratch (l : Live) (blk : Vector Byte 64) : Scratch :=
  let t := counterAdd l.t0 l.t1 (l.buflen.setWidth 32)
  { h := l.h, t0 := t.1, t1 := t.2, f0 := flagLast, f1 := l.f1, blk := blk }

/-- The state words after the final compression (R141 step 6). -/
def Scratch.compress (c : Scratch) : Vector Word 8 := compressBlock c.h c.blk c.t0 c.t1 c.f0 c.f1

/-- The digest of the live registers (R141 steps 2 to 7). -/
def Live.digest (l : Live) : Except Fault (List Byte) :=
  match l.pad with
  | .ok blk => .ok (extractBytes (l.scratch blk).compress l.outlen)
  | .error f => .error f

/-- The live registers after steps 5 to 8 of an accepted INIT (R102): a new engine with nothing pending.
`buf` keeps its bytes, none of them pending (log 3). -/
def Live.construct (l : Live) (outlen : Int) (key salt pers : List Byte) : Live :=
  { h := ivXor (marshal (BitVec.ofInt 8 outlen) (byteOf key.length) salt pers), t0 := 0, t1 := 0, f0 := 0, f1 := 0,
    buf := l.buf, buflen := 0, outlen := BitVec.ofInt 6 outlen }

/-- The bytes step 9 of INIT absorbs: the key block, or nothing for an empty key (R102, R103). -/
def keyInput (key : List Byte) : List Byte := if key.length > 0 then keyBlock key else []

end Sys2Proof.Machine
end

