-- ==== Sys2Proof/Machine/Append.lean ====
section
/-! DEFINITION. Sub-block 2, streaming byte buffer and block sequencer: ABSORB1, CTRADD, APPEND
(41_append.md). -/

namespace Sys2Proof.Machine

/-- ABSORB1 (R110). Where it compresses a deferred block, `v` and `m` are dead afterwards (R33, R34; log 8). -/
def execAbsorb1 (x : Byte) (s : State) : Host.Outcome State Fault Refusal :=
  match s.live.absorb1 x with
  | .ok l => .next (s.absorbed 1 l)
  | .error f => .fault f

/-- CTRADD (R111) on the live counter. -/
def execCtradd (n : Fin 65) (s : State) : Host.Outcome State Fault Refusal :=
  let t := counterAdd s.live.t0 s.live.t1 (BitVec.ofNat 32 n.val)
  .next { s with live := { s.live with t0 := t.1, t1 := t.2 } }

/-- APPEND once dispatch has passed (R112). -/
def runAppend (data : List Byte) (s : State) : Host.Outcome State Fault Refusal :=
  match s.live.absorb data with
  | .ok l => .next (({ s with live := l }).endTransients.respond (.count data.length))
  | .error f => .fault f

/-- APPEND (R112). -/
def execAppend (data : List Byte) (s : State) : Host.Outcome State Fault Refusal := dispatch true s (runAppend data)

end Sys2Proof.Machine
end

