-- ==== Sys2Proof/Machine/Compress.lean ====
section
/-! DEFINITION. Sub-block 3, the compression function pipeline: MSGLOAD, VINIT, G, ROUND, FEEDFWD,
COMPRESS, ADD32, XOR32, ROTR32 (42_compress.md). -/

namespace Sys2Proof.Machine

/-- MSGLOAD (R123): writes the transient m, or raises F_BLOCKLEN for a block that is not exactly 64 bytes. -/
def execMsgload (block : List Byte) (s : State) : Host.Outcome State Fault Refusal :=
  match blockOf? block with
  | some b => .next { s with m := some (msgWords b) }
  | none => .next (raiseError .blockLen s)

/-- VINIT (R124): writes the transient v. -/
def execVinit (h : Vector Word 8) (t0 t1 f0 f1 : Word) (s : State) : Host.Outcome State Fault Refusal :=
  .next { s with v := some (initVector h t0 t1 f0 f1) }

/-- G (R125): no state written by itself, the four words go back to the caller. -/
def execG (a b c d x y : Word) (s : State) : Host.Outcome State Fault Refusal :=
  let o := mixG a b c d x y
  .next { s with ret := some (.quad o.a o.b o.c o.d) }

/-- ROUND (R126): reads m, reads and writes v. -/
def execRound (r : Fin 10) (s : State) : Host.Outcome State Fault Refusal :=
  .next { s with v := some (mixRound s.readM s.readV r), draws := s.drawIf (s.v.isNone || s.m.isNone) 32 }

/-- FEEDFWD (R128): reads v, hands back h'; v is dead afterwards (R33), and m with it (R34; log 8). -/
def execFeedfwd (h : Vector Word 8) (s : State) : Host.Outcome State Fault Refusal :=
  .next ({ s with ret := some (.words (feedForward h s.readV)), draws := s.drawIf s.v.isNone 32 }).endCompression

/-- COMPRESS (R129): hands back h', or raises F_BLOCKLEN (from MSGLOAD); v and m live and die inside it (R33,
R34). -/
def execCompress (h : Vector Word 8) (block : List Byte) (t0 t1 f0 f1 : Word) (s : State) :
    Host.Outcome State Fault Refusal :=
  match blockOf? block with
  | some b => .next ({ s with ret := some (.words (compressBlock h b t0 t1 f0 f1)) }).endCompression
  | none => .next (raiseError .blockLen s)

/-- ADD32 (R120). -/
def execAdd32 (a b : Word) (s : State) : Host.Outcome State Fault Refusal :=
  .next { s with ret := some (.word (add32 a b)) }

/-- XOR32 (R121). -/
def execXor32 (a b : Word) (s : State) : Host.Outcome State Fault Refusal :=
  .next { s with ret := some (.word (xor32 a b)) }

/-- ROTR32 (R122). -/
def execRotr32 (x : Word) (n : RotAmount) (s : State) : Host.Outcome State Fault Refusal :=
  .next { s with ret := some (.word (rotr32 x n)) }

end Sys2Proof.Machine
end

