-- ==== Sys2Proof/Machine/Finalize.lean ====
section
/-! DEFINITION. Sub-block 4, finalize and extract output mux, size queries, reset entry: PAD, FINAL,
EXTRACT, BLKSZ, OUTSZ, RESET (43_finalize.md). -/

namespace Sys2Proof.Machine

/-- PAD (R140): hands back the padded block; `buf` is not modified. -/
def execPad (s : State) : Host.Outcome State Fault Refusal :=
  match s.live.pad with
  | .ok b => .next { s with ret := some (.block b) }
  | .error f => .fault f

/-- FINAL once dispatch has passed (R141): the guard on the live flag, then the digest of a value copy; no live
register is written. -/
def runFinal (s : State) : Host.Outcome State Fault Refusal :=
  if s.live.f0 ≠ 0 then .next (raiseError .finalFlag s)
  else
    match s.live.digest with
    | .ok digest => .next (s.endTransients.respond (.bytes digest))
    | .error f => .fault f

/-- FINAL (R141). -/
def execFinal (s : State) : Host.Outcome State Fault Refusal := dispatch true s runFinal

/-- EXTRACT (R142): hands back the digest bytes. -/
def execExtract (h : Vector Word 8) (outlen : BitVec 6) (s : State) : Host.Outcome State Fault Refusal :=
  .next { s with ret := some (.digest (extractBytes h outlen)) }

/-- BLKSZ (R144). -/
def execBlksz (s : State) : Host.Outcome State Fault Refusal :=
  dispatch true s fun s => .next (s.respond (.size Config.blockBytes))

/-- OUTSZ (R145). -/
def execOutsz (s : State) : Host.Outcome State Fault Refusal :=
  dispatch true s fun s => .next (s.respond (.size s.live.outlen.toNat))

/-- RESET (R146): always the unsupported-operation signal, which is terminal. -/
def execReset (s : State) : Host.Outcome State Fault Refusal :=
  dispatch true s fun s => .next (raiseError .unsupported s)

end Sys2Proof.Machine
end

