-- ==== Sys2Proof/Machine/ParamInit.lean ====
section
/-! DEFINITION. Sub-block 1, parameter block and initializer: MARSHAL, IVXOR, KEYBLK, INIT
(40_param_init.md). -/

namespace Sys2Proof.Machine

/-- MARSHAL (R100): writes the transient P. Every `outlen` and `keylen` byte is written as it is given (log 23); a
field operand of more than 8 bytes gives a free field (log 15). -/
def execMarshal (outlen keylen : Byte) (salt pers : List Byte) (s : State) : Host.Outcome State Fault Refusal :=
  .next { s with
    pb := some (marshal outlen keylen (fieldOperand salt s.draws) (fieldOperand pers (s.draws + 8))),
    draws := s.drawIf (decide (8 < salt.length) || decide (8 < pers.length)) 16 }

/-- IVXOR (R101): writes `h[0..7]` from PB. -/
def execIvxor (s : State) : Host.Outcome State Fault Refusal :=
  .next { s with live := { s.live with h := ivXor s.readPB }, draws := s.drawIf s.pb.isNone 32 }

/-- KEYBLK (R103): ABSORB1 of the 64 bytes of the key block, whatever is pending (log 24); a key outside the rule's
domain gives a free key block (log 15). Where a block is compressed on the way, `v` and `m` are dead afterwards (R33,
R34; log 8). -/
def execKeyblk (key : List Byte) (s : State) : Host.Outcome State Fault Refusal :=
  match s.live.absorb (keyBlockOperand key s.draws) with
  | .ok l => .next { s.absorbed Config.blockBytes l with draws := s.drawIf (!keyInDomain key) Config.blockBytes }
  | .error f => .fault f

/-- INIT once dispatch has passed (R102 steps 1 to 10): the four checks before any write, then a new engine whatever
the old one held (R104). -/
def runInit (outlen : Int) (key salt pers : List Byte) (s : State) : Host.Outcome State Fault Refusal :=
  match constructionError outlen key salt pers with
  | some code => .next (raiseError code s)
  | none =>
    match (s.live.construct outlen key salt pers).absorb (keyInput key) with
    | .ok l => .next (({ s with live := l, st := .ready }).endTransients.respond .ok)
    | .error f => .fault f

/-- INIT (R102): it needs no engine (R153). -/
def execInit (outlen : Int) (key salt pers : List Byte) (s : State) : Host.Outcome State Fault Refusal :=
  dispatch false s (runInit outlen key salt pers)

end Sys2Proof.Machine
end

