-- ==== Sys2Proof/Machine/Dispatch.lean ====
section
/-! DEFINITION. One arm per instruction. -/

namespace Sys2Proof.Machine

/-- What an instruction does. -/
def exec (i : Instr) (s : State) : Host.Outcome State Fault Refusal :=
  match i with
  -- commands (30_encoding.md R83)
  | .init outlen key salt pers => Sys2Proof.Machine.execInit outlen key salt pers s
  | .append data => Sys2Proof.Machine.execAppend data s
  | .final => Sys2Proof.Machine.execFinal s
  | .blksz => Sys2Proof.Machine.execBlksz s
  | .outsz => Sys2Proof.Machine.execOutsz s
  | .reset => Sys2Proof.Machine.execReset s
  -- micro-operations (30_encoding.md R90)
  | .marshal outlen keylen salt pers => Sys2Proof.Machine.execMarshal outlen keylen salt pers s
  | .ivxor => Sys2Proof.Machine.execIvxor s
  | .keyblk key => Sys2Proof.Machine.execKeyblk key s
  | .absorb1 x => Sys2Proof.Machine.execAbsorb1 x s
  | .ctradd n => Sys2Proof.Machine.execCtradd n s
  | .msgload block => Sys2Proof.Machine.execMsgload block s
  | .vinit h t0 t1 f0 f1 => Sys2Proof.Machine.execVinit h t0 t1 f0 f1 s
  | .g a b c d x y => Sys2Proof.Machine.execG a b c d x y s
  | .round r => Sys2Proof.Machine.execRound r s
  | .feedfwd h => Sys2Proof.Machine.execFeedfwd h s
  | .compress h block t0 t1 f0 f1 => Sys2Proof.Machine.execCompress h block t0 t1 f0 f1 s
  | .pad => Sys2Proof.Machine.execPad s
  | .extract h outlen => Sys2Proof.Machine.execExtract h outlen s
  | .add32 a b => Sys2Proof.Machine.execAdd32 a b s
  | .xor32 a b => Sys2Proof.Machine.execXor32 a b s
  | .rotr32 x n => Sys2Proof.Machine.execRotr32 x n s

end Sys2Proof.Machine
end

