-- ==== Sys2Proof/Machine/Step.lean ====
section
/-! DEFINITION. One step of the machine: one command, from its frame to its response (00_scope.md R7), or
one micro-operation if the sequencer stands at one (log 7). -/

namespace Sys2Proof.Machine

/-- One step. -/
def step (s : State) : Host.Outcome State Fault Refusal :=
  match fetch s with
  | .run i s' => exec i s'
  | .illegal s' => .next (illegalOpcode s')
  | .nothing why => .refused why

/-- The state with an opcode-table word where the next step fetches. -/
def State.withFetchWord (s : State) (nbits w : Nat) : State := placeWord s nbits w

end Sys2Proof.Machine
end

