-- ==== Sys2Proof/Machine/Pseudo.lean ====
section
/-! DEFINITION. The host's pseudo-operations as command sequences (30_encoding.md R89), the whole-run form
of a command list, and the block-wise form of APPEND (41_append.md R113). -/

namespace Sys2Proof.Machine

/-- Run instructions one after another, stopping at the first fault or refusal. -/
def runAll : List Instr → State → Host.Outcome State Fault Refusal
  | [], s => .next s
  | i :: is, s =>
    match exec i s with
    | .next s' => runAll is s'
    | .fault f => .fault f
    | .refused r => .refused r

/-- `APPENDN`: APPEND of successive pieces (R89). -/
def appendPieces (pieces : List (List Byte)) : List Instr := pieces.map .append

/-- `HASH`: INIT, APPEND of the data in the given pieces, FINAL (R89; one piece for HASH itself). -/
def hashCommands (outlen : Int) (key salt pers : List Byte) (pieces : List (List Byte)) : List Instr :=
  .init outlen key salt pers :: (appendPieces pieces ++ [.final])

/-- `SUM acc`: what the host computes from a digest (R89). -/
def sumAccumulator (acc digest : List Byte) : List Byte := acc ++ digest

/-- The ten ROUND micro-operations of one compression, in order (R129 step 3). -/
def roundOps : List Instr := [0, 1, 2, 3, 4, 5, 6, 7, 8, 9].map .round

/-- The micro-operations COMPRESS is made of (R129). -/
def compressOps (h : Vector Word 8) (block : List Byte) (t0 t1 f0 f1 : Word) : List Instr :=
  .msgload block :: .vinit h t0 t1 f0 f1 :: (roundOps ++ [.feedfwd h])

/-- Write a run of bytes to BUF from cell `a` on (R113). -/
def Memory.writeRun : Memory → Nat → List Byte → Memory
  | b, _, [] => b
  | b, a, x :: xs => Memory.writeRun (b.write a x) (a + 1) xs

/-- One turn of the loop of R113 on a non-empty rest of the data: empty a full buffer, then copy as many
bytes as fit. -/
def Live.copyRun (l : Live) (data : List Byte) : Live × List Byte :=
  let l' := if l.buflen = 64 then l.compressDeferred else l
  let k := min (64 - l'.buflen.toNat) data.length
  ({ l' with buf := l'.buf.writeRun l'.buflen.toNat (data.take k), buflen := l'.buflen + BitVec.ofNat 7 k }, data.drop k)

/-- The block-wise form of APPEND on the live registers, with as many turns as there are bytes at most
(R113: k ≥ 1). -/
def Live.absorbRuns : Nat → Live → List Byte → Live
  | 0, l, _ => l
  | _ + 1, l, [] => l
  | turns + 1, l, x :: xs => Live.absorbRuns turns (l.copyRun (x :: xs)).1 (l.copyRun (x :: xs)).2

end Sys2Proof.Machine
end

