-- ==== Sys2Proof/Safety.lean ====
section
/-! DEFINITION. What the claims speak of: the counter's value, the pending bytes, the invariant of the
machine, when two engines agree on all a rule may read, and which states a run may end in. -/

namespace Sys2Proof.Machine

/-- `T`, the value of the byte counter `t1:t0` (10_state.md R26). -/
def counterValue (t0 t1 : Word) : Nat := t1.toNat * 2 ^ 32 + t0.toNat

/-- The counter value of the live registers. -/
def Live.counter (l : Live) : Nat := counterValue l.t0 l.t1

/-- The pending bytes in arrival order (R28). -/
def Live.pending (l : Live) : List Byte := (List.range l.buflen.toNat).map l.buf.read

/-- `buflen` is in the range the spec gives it (R29). -/
abbrev Live.fillOk (l : Live) : Prop := l.buflen.toNat ≤ 64

/-- What 10_state.md R40 says of the live registers of a READY state: `buflen` is in range, the output length is
legal, the flags are 0, the counter is a multiple of 64, and an empty buffer means that nothing was absorbed. -/
structure Live.EngineOk (l : Live) : Prop where
  fill : l.fillOk
  outlen_pos : 1 ≤ l.outlen.toNat
  outlen_max : l.outlen.toNat ≤ 32
  f0_zero : l.f0 = 0
  f1_zero : l.f1 = 0
  counter_blocks : l.counter % 64 = 0
  empty_fresh : l.buflen = 0 → l.counter = 0

/-- The invariant of the machine between commands: the sequencer is idle and no transient has a value (R41),
BUF is in canonical form, and a READY engine is as R40 says. In EMPTY and FAULTED it asks nothing of a register. -/
structure State.Inv (s : State) : Prop where
  idle : s.seq = none
  no_pb : s.pb = none
  no_v : s.v = none
  no_m : s.m = none
  no_ret : s.ret = none
  buf_wf : s.live.buf.wf = true
  engine : s.st = .ready → s.live.EngineOk

/-- Two engines agree on everything a rule may read: all registers, and the pending bytes of `buf` (R28: bytes
at index ≥ `buflen` are read by no rule). -/
structure Live.Agree (l l' : Live) : Prop where
  h : l.h = l'.h
  t0 : l.t0 = l'.t0
  t1 : l.t1 = l'.t1
  f0 : l.f0 = l'.f0
  f1 : l.f1 = l'.f1
  buflen : l.buflen = l'.buflen
  outlen : l.outlen = l'.outlen
  pending : ∀ a, a < l.buflen.toNat → l.buf.read a = l'.buf.read a

/-- The operands INIT accepts (40_param_init.md R102). -/
abbrev ValidOperands (outlen : Int) (key salt pers : List Byte) : Prop :=
  1 ≤ outlen ∧ outlen ≤ 32 ∧ key.length ≤ 32 ∧ salt.length ≤ 8 ∧ pers.length ≤ 8

/-- A response a command may send in a state: the one of its row in 30_encoding.md R83, R85, or an error (R15). A
micro-operation sends none. -/
def Response.Answers (r : Response) (i : Instr) (s : State) : Prop :=
  match i with
  | .init _ _ _ _ => r = .ok ∨ ∃ code, r = .err code
  | .append data => r = .count data.length ∨ ∃ code, r = .err code
  | .final => (∃ d, r = .bytes d ∧ d.length = min s.live.outlen.toNat 32) ∨ ∃ code, r = .err code
  | .blksz => r = .size 64 ∨ ∃ code, r = .err code
  | .outsz => r = .size s.live.outlen.toNat ∨ ∃ code, r = .err code
  | .reset => ∃ code, r = .err code
  | .marshal _ _ _ _ => False
  | .ivxor => False
  | .keyblk _ => False
  | .absorb1 _ => False
  | .ctradd _ => False
  | .msgload _ => False
  | .vinit _ _ _ _ _ => False
  | .g _ _ _ _ _ _ => False
  | .round _ => False
  | .feedfwd _ => False
  | .compress _ _ _ _ _ _ => False
  | .pad => False
  | .extract _ _ => False
  | .add32 _ _ => False
  | .xor32 _ _ => False
  | .rotr32 _ _ => False

/-- A run may end in this state: the engine has not faulted (93_implementation_defined.md U5). -/
abbrev State.Accepting (s : State) : Prop := s.st ≠ .faulted

end Sys2Proof.Machine
end

