-- ==== Sys2Proof/Certificates/Slice0/Obligations.lean ====
section
/-! DEFINITION. The statements for the provers. Each says what a rule of spec/ says of an instruction or of
the machine. Where a clause rests on a choice of the model its docstring names the log entry; where it rests
on a decision the spec marks as its own (D<n>) or on its general knowledge (G<n>), it names that (log 18,
log 17). What a pure micro-operation hands back is read from the model's field `ret` (log 10). Every statement about a
step has the host's duty of 70_reset_and_hazards.md R180 as its premise, one command at a time by one owner
(93_implementation_defined.md U1): a second command in flight has no step (log 4). -/

section
open Sys2Proof Sys2Proof.Machine

/-! ### Encoding -/

/-- 30_encoding.md R84, R87: the decoder reads back every command a frame can carry, from its frame followed by
any bytes, with every operand, and leaves exactly the bytes after the frame. The frames are the spec's decision
D3. -/
def Obligations.FrameDecodesToItsCommand : Prop :=
  ∀ (i : Instr) (rest : List Byte), i.WellFormed → i.isCommand = true →
    decodeFrame (frameOf i ++ rest) = .command i rest

/-- 30_encoding.md R84: whatever the decoder reads as a command is a well-formed command, and the bytes it took
are that command's frame: each frame has one meaning and each command one frame. The frames are the spec's
decision D3. -/
def Obligations.DecodedFrameIsCanonical : Prop :=
  ∀ (bytes rest : List Byte) (i : Instr), decodeFrame bytes = .command i rest →
    i.WellFormed ∧ i.isCommand = true ∧ bytes = frameOf i ++ rest

/-- 30_encoding.md R90: the sixteen labels name sixteen different micro-operations, each well formed (the
operands a label lacks are log 11's). The labels are the spec's decision D21. -/
def Obligations.LabelsNameDistinctMicroOperations : Prop :=
  ∀ code : BitVec 4, encode (decodeLabel code) = .label code ∧ (decodeLabel code).WellFormed ∧
    (decodeLabel code).isCommand = false

/-- Frames written out byte by byte from 30_encoding.md R84 (95_test_vectors.md P1, P3, P4). The frames are the
spec's decision D3. -/
def Obligations.SampleFramesDecode : Prop :=
  decodeFrame [0x01, 0x10, 0x00, 0x02, 0x00, 0x01, 0x02] = .command (.init 16 [] [0x01, 0x02] []) [] ∧
  decodeFrame [0x02, 0x03, 0x00, 0x00, 0x00, 0x61, 0x62, 0x63, 0x03] = .command (.append [0x61, 0x62, 0x63]) [0x03] ∧
  decodeFrame [0x03] = .command .final [] ∧ decodeFrame [0x04] = .command .blksz [] ∧
  decodeFrame [0x05] = .command .outsz [] ∧ decodeFrame [0x06] = .command .reset [] ∧
  decodeFrame [0x07, 0x03] = .illegal 0x07 [0x03] ∧ decodeFrame [0x81] = .illegal 0x81 []

/-- 30_encoding.md R85, 60_exceptions.md R150: the response frames, and one distinct non-zero code for each
error. Frames and codes are the spec's decision D4. That a count is taken modulo 2³² and a size modulo 2⁸ is the
model's choice (log 22): R85 gives them four bytes and one. -/
def Obligations.ResponseFramesAsTabulated : Prop :=
  Response.ok.frame = [0x00] ∧
  (∀ n, (Response.count n).frame = 0x00 :: bytesLE32 (BitVec.ofNat 32 n)) ∧
  (∀ s, (Response.bytes s).frame = 0x00 :: s) ∧
  (∀ n, (Response.size n).frame = [0x00, BitVec.ofNat 8 n]) ∧
  [ErrorCode.outLen, .keyLen, .saltLen, .persLen, .blockLen, .finalFlag, .unsupported, .notReady, .illCmd,
    .faulted].map (fun c => (Response.err c).frame) =
    [[0x01], [0x02], [0x03], [0x04], [0x05], [0x06], [0x07], [0x08], [0x09], [0x0A]]

/-! ### The step -/

/-- 00_scope.md R7: a step runs the command whose frame stands alone at the command port, all of whose bytes it takes
(30_encoding.md R84); with no byte there, the next frame the host sends once it has its response (70_reset_and_hazards.md
R180; log 4, the model's choice); where the sequencer stands at a micro-operation (log 7, the model's choice), that one.
With nothing to come, or an incomplete frame, there is no step (log 6, the model's choice: one step is one command, R7). -/
def Obligations.StepRunsWhatIsDecoded : Prop :=
  (∀ (s : State) (i : Instr), s.seq = none → decodeFrame s.input = .command i [] →
    step s = exec i { s with input := [] }) ∧
  (∀ (s : State) (i : Instr) (frame : List Byte) (later : List (List Byte)), s.seq = none → s.input = [] →
    s.plan = frame :: later → decodeFrame frame = .command i [] → step s = exec i { s with plan := later }) ∧
  (∀ (s : State) (i : Instr), s.seq = some i → step s = exec i { s with seq := none }) ∧
  (∀ s : State, s.seq = none → s.input = [] → s.plan = [] → step s = .refused .noCommand) ∧
  (∀ s : State, s.seq = none → decodeFrame s.port = .incomplete → step s = .refused .incompleteFrame)

/-- 30_encoding.md R86 (a), 60_exceptions.md R153: an opcode byte outside 0x01 … 0x06 is a frame of one byte;
the response is E_ILLCMD, or E_FAULTED when the engine is FAULTED, and nothing else changes. Rests on the spec's
decisions D3, D4 and D28. -/
def Obligations.IllegalOpcodeByteAnswered : Prop :=
  ∀ (s : State) (b : Byte), s.seq = none → s.port = [b] → (b = 0 ∨ 6 < b.toNat) →
    step s = .next { s.taken with output := s.output ++ [if s.st = .faulted then 0x0A else 0x09] }

/-- 00_scope.md R15, 30_encoding.md R83, R85: a step from an idle sequencer takes all bytes of the one frame at the
command port and sends exactly one response: the one its command's row gives, or an error (`Response.Answers`); to an
illegal opcode byte an error. The frames are the spec's decisions D3, D4 and D29. -/
def Obligations.EveryCommandAnswersOnce : Prop :=
  ∀ s t : State, s.seq = none → step s = .next t →
    ((∃ (i : Instr) (r : Response), decodeFrame s.port = .command i [] ∧ r.Answers i s ∧ t.output = s.output ++ r.frame) ∨
      ∃ (b : Byte) (code : ErrorCode), decodeFrame s.port = .illegal b [] ∧
        t.output = s.output ++ (Response.err code).frame) ∧
    t.input = s.taken.input ∧ t.plan = s.taken.plan

/-! ### Dispatch, status, errors -/

/-- 60_exceptions.md R153 step 1, R159: while FAULTED every command is answered E_FAULTED and nothing else
changes. Rests on the spec's decisions D4, D5, D10 and D28. -/
def Obligations.FaultedEngineAnswersOnlyFaulted : Prop :=
  ∀ (i : Instr) (s : State), i.isCommand = true → s.st = .faulted →
    exec i s = .next { s with output := s.output ++ [0x0A] }

/-- 60_exceptions.md R153 step 3: while EMPTY every command but INIT is answered E_NOTREADY and nothing else
changes. Rests on the spec's decisions D4, D5 and D28. -/
def Obligations.EmptyEngineAnswersNotReady : Prop :=
  ∀ (i : Instr) (s : State), i.isCommand = true → (∀ outlen key salt pers, i ≠ .init outlen key salt pers) →
    s.st = .empty → exec i s = .next { s with output := s.output ++ [0x08] }

/-- 60_exceptions.md R159, over runs: no sequence of frames leaves FAULTED or changes a live register there.
Rests on the spec's decision D10. -/
def Obligations.FaultedIsStickyAlongRuns : Prop :=
  ∀ (n : Nat) (s t : State), s.seq = none → s.st = .faulted → Sys2Proof.core.run n s = .next t →
    t.st = .faulted ∧ t.live = s.live ∧ t.seq = none

/-- 10_state.md R31: the transitions of `st`. EMPTY is left only by an accepted INIT; READY only by RESET, or by
FINAL on a live flag that is set; FAULTED never. Rests on the spec's decisions D5, D10 and D11. -/
def Obligations.StatusTransitionsAsListed : Prop :=
  ∀ s t : State, s.seq = none → step s = .next t →
    (s.st = .empty → t.st = .empty ∨ (t.st = .ready ∧ ∃ outlen key salt pers,
      decodeFrame s.port = .command (.init outlen key salt pers) [] ∧ ValidOperands outlen key salt pers)) ∧
    (s.st = .ready → t.st = .ready ∨ (t.st = .faulted ∧
      (decodeFrame s.port = .command .reset [] ∨ (decodeFrame s.port = .command .final [] ∧ s.live.f0 ≠ 0)))) ∧
    (s.st = .faulted → t.st = .faulted)

/-- Whole-machine frame (43_finalize.md R141, R144 to R146; 10_state.md R30): only INIT and APPEND write a live
register, and only an accepted INIT writes `outlen`, `f0` or `f1`. That a rejected INIT writes nothing is the
spec's decision D7. -/
def Obligations.OnlyInitAndAppendWriteLiveRegisters : Prop :=
  ∀ s t : State, s.seq = none → step s = .next t →
    (t.live ≠ s.live → (∃ outlen key salt pers, decodeFrame s.port = .command (.init outlen key salt pers) []) ∨
      (∃ data, decodeFrame s.port = .command (.append data) [])) ∧
    ((t.live.outlen ≠ s.live.outlen ∨ t.live.f0 ≠ s.live.f0 ∨ t.live.f1 ≠ s.live.f1) →
      ∃ outlen key salt pers, decodeFrame s.port = .command (.init outlen key salt pers) [] ∧
        ValidOperands outlen key salt pers)

/-! ### The invariant -/

/-- 10_state.md R41, R175: the state after power-on meets the invariant. While `st` is EMPTY the invariant asks
nothing of a register; of `buf` it asks the model's canonical form, which holds of any contents. That `st` is EMPTY is
the spec's decision D6. -/
def Obligations.ResetMeetsInvariant : Prop := State.reset.Inv ∧ State.reset.st = .empty

/-- 10_state.md R40 (a) to (e), R41, 20_memory.md R50: every step keeps the invariant. R40 is marked derived by
the spec. -/
def Obligations.StepKeepsInvariant : Prop := ∀ s t : State, s.Inv → step s = .next t → t.Inv

/-- 20_memory.md R54, R59: in a state that meets the invariant no step reaches past the buffer; the model's one
fault (log 14) is never raised. -/
def Obligations.InvariantStatesNeverFault : Prop := ∀ (s : State) (f : Fault), s.Inv → step s ≠ .fault f

/-! ### INIT and its micro-operations -/

/-- 40_param_init.md R102 steps 1 to 4, R104; 60_exceptions.md R152, R156 (b), R157: a rejected INIT answers the
first failing check and changes nothing else. Rests on the spec's decisions D4, D7 and D9. -/
def Obligations.InitRejectsInListOrder : Prop :=
  ∀ (outlen : Int) (key salt pers : List Byte) (s : State), s.st ≠ .faulted → ¬ ValidOperands outlen key salt pers →
    exec (.init outlen key salt pers) s = .next { s with output := s.output ++
      [if outlen ≤ 0 ∨ 32 < outlen then 0x01 else if 32 < key.length then 0x02 else if 8 < salt.length then 0x03 else 0x04] }

/-- 40_param_init.md R102, R103; 10_state.md R41: an accepted INIT, from EMPTY or READY. The chaining value is
written out from 10_state.md R20 and 30_encoding.md R72. With no key the cells of BUF keep their bytes, none
pending (log 3). The constants are the spec's general knowledge G1, the response byte its decision D4; that the
transients end is the model's inference (log 8). -/
def Obligations.InitBuildsEngine : Prop :=
  ∀ (outlen : Int) (key salt pers : List Byte) (s : State), s.st ≠ .faulted → s.live.buf.wf = true →
    ValidOperands outlen key salt pers →
    ∃ live : Live,
      exec (.init outlen key salt pers) s = .next { s with
        st := .ready, live := live, pb := none, v := none, m := none, ret := none, output := s.output ++ [0x00] } ∧
      live.h = #v[0x6A09E667 ^^^ BitVec.ofNat 32 (0x01010000 + 0x100 * key.length + outlen.toNat), 0xBB67AE85, 0x3C6EF372,
        0xA54FF53A,
        0x510E527F ^^^ le32 (salt.getD 0 0) (salt.getD 1 0) (salt.getD 2 0) (salt.getD 3 0),
        0x9B05688C ^^^ le32 (salt.getD 4 0) (salt.getD 5 0) (salt.getD 6 0) (salt.getD 7 0),
        0x1F83D9AB ^^^ le32 (pers.getD 0 0) (pers.getD 1 0) (pers.getD 2 0) (pers.getD 3 0),
        0x5BE0CD19 ^^^ le32 (pers.getD 4 0) (pers.getD 5 0) (pers.getD 6 0) (pers.getD 7 0)] ∧
      live.t0 = 0 ∧ live.t1 = 0 ∧ live.f0 = 0 ∧ live.f1 = 0 ∧ (live.outlen.toNat : Int) = outlen ∧
      live.buf.wf = true ∧
      (key = [] → live.buflen = 0 ∧ live.buf = s.live.buf) ∧
      (key ≠ [] → live.buflen = 64 ∧ ∀ a, a < 64 → live.buf.read a = key.getD a 0)

/-- 40_param_init.md R104, R105: an accepted INIT leaves an engine that depends on its operands alone; nothing
of the earlier engine survives that a rule may read. Rests on the spec's decision D8. -/
def Obligations.InitForgetsTheEarlierEngine : Prop :=
  ∀ (outlen : Int) (key salt pers : List Byte) (s s' : State), s.st ≠ .faulted → s'.st ≠ .faulted →
    s.live.buf.wf = true → s'.live.buf.wf = true → ValidOperands outlen key salt pers →
    ∃ t t' : State, exec (.init outlen key salt pers) s = .next t ∧ exec (.init outlen key salt pers) s' = .next t' ∧
      t.st = .ready ∧ t'.st = .ready ∧ t.live.Agree t'.live

/-- 40_param_init.md R100, 30_encoding.md R70: MARSHAL writes the 32 bytes of P, field by field, and nothing else, for
the operands of the rule. -/
def Obligations.MarshalLaysOutParameterBlock : Prop :=
  ∀ (outlen keylen : Byte) (salt pers : List Byte) (s : State), 1 ≤ outlen.toNat → outlen.toNat ≤ 32 →
    keylen.toNat ≤ 32 → salt.length ≤ 8 → pers.length ≤ 8 →
    ∃ p : Vector Byte 32, exec (.marshal outlen keylen salt pers) s = .next { s with pb := some p } ∧
      p.toList = [outlen, keylen, 0x01, 0x01] ++ List.replicate 12 0x00 ++
        (salt ++ List.replicate (8 - salt.length) 0x00) ++ (pers ++ List.replicate (8 - pers.length) 0x00)

/-- 40_param_init.md R101: IVXOR writes word `i` of `h` with constant `i` XOR the little-endian word `i` of P, and
writes nothing else. -/
def Obligations.IvxorWritesOnlyChainingValue : Prop :=
  ∀ (p : Vector Byte 32) (s : State), s.pb = some p → ∃ h : Vector Word 8,
    exec .ivxor s = .next { s with live := { s.live with h := h } } ∧
    ∀ i : Fin 8, h[i] = iv[i] ^^^ le32 p[4 * i.val] p[4 * i.val + 1] p[4 * i.val + 2] p[4 * i.val + 3]

/-- 40_param_init.md R103: KEYBLK on an empty buffer leaves the key, right-zero-padded to 64 bytes, pending, and
writes nothing else. The effect in full is marked derived by the spec. -/
def Obligations.KeyblkLeavesKeyBlockPending : Prop :=
  ∀ (key : List Byte) (s : State), 1 ≤ key.length → key.length ≤ 32 → s.live.buflen = 0 → s.live.buf.wf = true →
    ∃ buf : Memory, exec (.keyblk key) s = .next { s with live := { s.live with buf := buf, buflen := 64 } } ∧
      buf.wf = true ∧ ∀ a, a < 64 → buf.read a = key.getD a 0

/-- 40_param_init.md R103: KEYBLK does to the live registers what APPEND of the padded key does ("precisely as if that
padded block were the first 64 bytes of message input"). R103 runs it with nothing pending; that it does the same with
bytes pending is the model's inference (log 24), and so is that `v` and `m` are then dead, a deferred block having been
compressed (log 8). -/
def Obligations.KeyblkIsAppendOfThePaddedKey : Prop :=
  ∀ (key : List Byte) (s : State), 1 ≤ key.length → key.length ≤ 32 → s.st = .ready → s.live.fillOk →
    ∃ t : State, exec (.append (key ++ List.replicate (64 - key.length) 0)) s = .next t ∧
      exec (.keyblk key) s = .next { s with
        live := t.live, v := if s.live.buflen = 0 then s.v else none, m := if s.live.buflen = 0 then s.m else none }

/-- INIT's chaining value is what its micro-operations MARSHAL and IVXOR leave (40_param_init.md R102 steps 5 and 6). -/
def Obligations.InitIsMarshalThenIvxor : Prop :=
  ∀ (outlen : Int) (key salt pers : List Byte) (s : State), s.st ≠ .faulted → ValidOperands outlen key salt pers →
    ∃ t u : State, exec (.init outlen key salt pers) s = .next t ∧
      runAll [.marshal (BitVec.ofInt 8 outlen) (BitVec.ofNat 8 key.length) salt pers, .ivxor] s = .next u ∧
      t.live.h = u.live.h

/-- MARSHAL, KEYBLK and EXTRACT run also on operands outside their rules' domains. A field of P or a key block the spec
states no value for is free (log 15, the model's choice); every other effect is that of the rule: MARSHAL writes P and
the other fields of it, KEYBLK does its 64 ABSORB1 (also with bytes pending, log 24; `v` and `m` are as those leave them, log 8), EXTRACT takes the bytes there are
(log 23, the model's inference, as for MARSHAL's `outlen` and `keylen`). -/
def Obligations.MicroOperandsOutsideTheirRules : Prop :=
  (∀ (outlen keylen : Byte) (salt pers : List Byte) (s : State), ∃ p : Vector Byte 32,
    exec (.marshal outlen keylen salt pers) s = .next { s with
      pb := some p, draws := if 8 < salt.length ∨ 8 < pers.length then s.draws + 16 else s.draws } ∧
    p.toList = [outlen, keylen, 0x01, 0x01] ++ List.replicate 12 0x00 ++
      (if salt.length ≤ 8 then salt ++ List.replicate (8 - salt.length) 0x00 else freeBytes s.draws 8) ++
      (if pers.length ≤ 8 then pers ++ List.replicate (8 - pers.length) 0x00 else freeBytes (s.draws + 8) 8)) ∧
  (∀ (key : List Byte) (s : State), (key = [] ∨ 32 < key.length) → s.live.fillOk → ∃ t : State,
    runAll ((freeBytes s.draws 64).map .absorb1) s = .next t ∧
    exec (.keyblk key) s = .next { t with draws := s.draws + 64 }) ∧
  (∀ (h : Vector Word 8) (outlen : BitVec 6) (s : State), ∃ d : List Byte,
    exec (.extract h outlen) s = .next { s with ret := some (.digest d) } ∧ d.length = min outlen.toNat 32 ∧
    ∀ j : Fin 32, j.val < outlen.toNat → d[j.val]? = some ((h[j.val / 4] >>> (8 * (j.val % 4))).setWidth 8))

/-! ### APPEND and its micro-operations -/

/-- 41_append.md R111: CTRADD adds `n` to the 64-bit counter, modulo 2⁶⁴, with the carry from `t0` into `t1`,
and writes nothing else. That the whole counter wraps is the spec's decision D12. -/
def Obligations.CounterAddIsSixtyFourBit : Prop :=
  ∀ (n : Fin 65) (s : State), ∃ t0 t1 : Word,
    exec (.ctradd n) s = .next { s with live := { s.live with t0 := t0, t1 := t1 } } ∧
    t0.toNat = (s.live.counter + n.val) % 2 ^ 64 % 2 ^ 32 ∧ t1.toNat = (s.live.counter + n.val) % 2 ^ 64 / 2 ^ 32

/-- 41_append.md R110: ABSORB1. With room in the buffer it stores its byte at `buf[buflen]` and counts it. With a
deferred block it first advances the counter by 64 and compresses the block with the advanced counter and the live
flags, and then stores its byte at `buf[0]`. Nothing else is written, but `v` and `m` are dead after the compression
(10_state.md R33, R34), which is the model's inference for an ABSORB1 issued alone (log 8). That the cells past the fill
keep their bytes, after a compression too, is its inference as well (log 3). -/
def Obligations.AbsorbStoresOneByte : Prop :=
  (∀ (x : Byte) (s : State), s.live.buflen.toNat < 64 → s.live.buf.wf = true → ∃ buf : Memory,
    exec (.absorb1 x) s = .next { s with live := { s.live with buf := buf, buflen := s.live.buflen + 1 } } ∧
    buf.wf = true ∧ ∀ a, buf.read a = if a = s.live.buflen.toNat then x else s.live.buf.read a) ∧
  (∀ (x : Byte) (s : State), s.live.buflen = 64 → s.live.buf.wf = true → ∃ (t0 t1 : Word) (buf : Memory),
    exec (.absorb1 x) s = .next { s with live := { s.live with
      h := compressBlock s.live.h (Vector.ofFn fun i => s.live.buf.read i.val) t0 t1 s.live.f0 s.live.f1,
      t0 := t0, t1 := t1, buf := buf, buflen := 1 }, v := none, m := none } ∧
    (t0, t1) = counterAdd s.live.t0 s.live.t1 64 ∧
    buf.wf = true ∧ ∀ a, buf.read a = if a = 0 then x else s.live.buf.read a)

/-- 41_append.md R112: APPEND completes on every byte sequence, answers Count(|data|), performs the number of
compressions the rule gives, and leaves the flags, `outlen` and everything outside the live registers alone. The
count of compressions is marked derived by the spec; the frame is its decision D4, the wrap of the counter D12. That
the count is taken modulo 2³² is the model's choice (log 22); that the transients end is its inference (log 8). -/
def Obligations.AppendCountsAndFills : Prop :=
  ∀ (data : List Byte) (s : State), s.st = .ready → s.live.fillOk → ∃ live : Live,
    exec (.append data) s = .next { s with
      live := live, pb := none, v := none, m := none, ret := none, output := s.output ++ 0x00 :: bytesLE32 (BitVec.ofNat 32 data.length) } ∧
    live.outlen = s.live.outlen ∧ live.f0 = s.live.f0 ∧ live.f1 = s.live.f1 ∧
    (s.live.buflen.toNat + data.length ≤ 64 →
      live.buflen.toNat = s.live.buflen.toNat + data.length ∧ live.h = s.live.h ∧ live.t0 = s.live.t0 ∧ live.t1 = s.live.t1) ∧
    (∀ c, 64 < s.live.buflen.toNat + data.length → c + 1 = (s.live.buflen.toNat + data.length + 63) / 64 →
      live.buflen.toNat = s.live.buflen.toNat + data.length - 64 * c ∧ live.counter = (s.live.counter + 64 * c) % 2 ^ 64)

/-- 41_append.md R115, R54: after APPEND the pending bytes are the last `buflen` bytes absorbed, and the only
cells written are the ones the data falls on: byte `j` of the data on cell `(buflen + j) mod 64`. That no other
cell changes rests on log 3. -/
def Obligations.AppendKeepsTheLastBytesPending : Prop :=
  ∀ (data : List Byte) (s t : State), s.st = .ready → s.live.fillOk → s.live.buf.wf = true →
    exec (.append data) s = .next t →
    t.live.buf.wf = true ∧
    t.live.pending = (s.live.pending ++ data).drop (s.live.buflen.toNat + data.length - t.live.buflen.toNat) ∧
    ∀ a, (∀ j, j < data.length → (s.live.buflen.toNat + j) % 64 ≠ a) → t.live.buf.read a = s.live.buf.read a

/-- 41_append.md R112: an empty APPEND changes no live register; in particular it never compresses a deferred block. The
response frame is R85's, the spec's decision D4; that the transients end is the model's inference (log 8). -/
def Obligations.EmptyAppendChangesNoRegister : Prop :=
  ∀ s : State, s.st = .ready → exec (.append []) s = .next { s with
    pb := none, v := none, m := none, ret := none, output := s.output ++ [0x00, 0x00, 0x00, 0x00, 0x00] }

/-- 41_append.md R112: an APPEND of one more byte is the APPEND of the others followed by ABSORB1 of it. -/
def Obligations.AppendIsAbsorbOfEachByte : Prop :=
  ∀ (data : List Byte) (x : Byte) (s : State), s.st = .ready → s.live.fillOk →
    ∃ t u v : State, exec (.append data) s = .next t ∧ exec (.absorb1 x) t = .next u ∧
      exec (.append (data ++ [x])) s = .next v ∧ v.live = u.live

/-- 41_append.md R114, streaming equivalence: however a byte sequence is cut into APPEND commands, empty pieces
allowed, it leaves the registers one APPEND of the whole leaves. R114 is marked derived by the spec. -/
def Obligations.StreamingEquivalence : Prop :=
  ∀ (pieces : List (List Byte)) (s : State), s.st = .ready → s.live.fillOk →
    ∃ t u : State, runAll (appendPieces pieces) s = .next t ∧ exec (.append pieces.flatten) s = .next u ∧
      t.live = u.live ∧ t.st = u.st

/-- 41_append.md R114: the state after absorbing `L` bytes from a fresh engine: fill, compressions and counter
depend on `L` alone. R114 is marked derived by the spec; the wrap of the counter is its decision D12. -/
def Obligations.AbsorbedLengthFixesFillAndCounter : Prop :=
  ∀ (pieces : List (List Byte)) (s : State), s.st = .ready → s.live.buflen = 0 → s.live.t0 = 0 → s.live.t1 = 0 →
    ∃ t : State, runAll (appendPieces pieces) s = .next t ∧
      (pieces.flatten = [] → t.live.buflen = 0 ∧ t.live.counter = 0 ∧ t.live.h = s.live.h) ∧
      (pieces.flatten ≠ [] → t.live.buflen.toNat = (pieces.flatten.length - 1) % 64 + 1 ∧
        t.live.counter = 64 * ((pieces.flatten.length - 1) / 64) % 2 ^ 64)

/-- 41_append.md R113: the block-wise form of APPEND is equal to the byte-wise rule. R113 is marked derived by
the spec. -/
def Obligations.BlockwiseAppendEqualsBytewise : Prop :=
  ∀ (data : List Byte) (l : Live), l.fillOk → l.absorb data = .ok (l.absorbRuns data.length data)

/-! ### The compression function -/

/-- 42_compress.md R120, R121: ADD32 is the sum modulo 2³², XOR32 is bit by bit; each writes no register. -/
def Obligations.AddWrapsAndXorIsBitwise : Prop :=
  (∀ (a b : Word) (s : State), ∃ w : Word, exec (.add32 a b) s = .next { s with ret := some (.word w) } ∧
    w.toNat = (a.toNat + b.toNat) % 2 ^ 32) ∧
  (∀ (a b : Word) (s : State), ∃ w : Word, exec (.xor32 a b) s = .next { s with ret := some (.word w) } ∧
    ∀ i, i < 32 → w.getLsbD i = (a.getLsbD i != b.getLsbD i))

/-- 42_compress.md R122: bit `i` of ROTR32's result is bit `(i + n) mod 32` of its operand, `n` the amount 16,
12, 8 or 7. The definition of the rotation is the spec's general knowledge G5. -/
def Obligations.RotateRightMovesBits : Prop :=
  ∀ (x : Word) (n : RotAmount) (s : State), ∃ w : Word, exec (.rotr32 x n) s = .next { s with ret := some (.word w) } ∧
    ∀ i, i < 32 → w.getLsbD i =
      x.getLsbD ((i + (match n with | .rot1 => 16 | .rot2 => 12 | .rot3 => 8 | .rot4 => 7)) % 32)

/-- 42_compress.md R123, 20_memory.md R53: bit `i` of byte `4k + j` of the block is bit `8j + i` of message word
`k`; MSGLOAD writes nothing but `m`. R53 is marked derived by the spec. -/
def Obligations.MessageWordsAreLittleEndian : Prop :=
  ∀ (block : List Byte) (s : State), block.length = 64 → ∃ m : Vector Word 16,
    exec (.msgload block) s = .next { s with m := some m } ∧
    ∀ (k : Fin 16) (j i : Nat), j < 4 → i < 8 →
      m[k].getLsbD (8 * j + i) = (block.getD (4 * k.val + j) 0).getLsbD i

/-- 42_compress.md R123, R129; 60_exceptions.md R151, R158: a block that is not exactly 64 bytes is the fatal
fault F_BLOCKLEN, never a result. Its code is that of R150 (30_encoding.md R85), the spec's decision D4; the terminal
state is D10, the guard D30. That a micro-operation issued alone answers as a command does is log 16, the model's
inference. -/
def Obligations.WrongBlockLengthIsFatal : Prop :=
  ∀ (h : Vector Word 8) (block : List Byte) (t0 t1 f0 f1 : Word) (s : State), block.length ≠ 64 →
    exec (.msgload block) s = .next { s with st := .faulted, output := s.output ++ [0x05] } ∧
    exec (.compress h block t0 t1 f0 f1) s = .next { s with st := .faulted, output := s.output ++ [0x05] }

/-- 42_compress.md R124: the working vector VINIT builds; it writes nothing else. -/
def Obligations.InitialWorkingVector : Prop :=
  ∀ (h : Vector Word 8) (t0 t1 f0 f1 : Word) (s : State),
    exec (.vinit h t0 t1 f0 f1) s = .next { s with v := some #v[h[0], h[1], h[2], h[3], h[4], h[5], h[6], h[7],
      iv[0], iv[1], iv[2], iv[3], iv[4] ^^^ t0, iv[5] ^^^ t1, iv[6] ^^^ f0, iv[7] ^^^ f1] }

/-- 42_compress.md R125: the eight steps of G, each using the values the earlier steps produced; G writes no register
by itself. -/
def Obligations.MixingFunctionEightSteps : Prop :=
  ∀ (a b c d x y : Word) (s : State),
    exec (.g a b c d x y) s = .next { s with ret := some (
      let a1 := a + b + x
      let d1 := (d ^^^ a1).rotateRight 16
      let c1 := c + d1
      let b1 := (b ^^^ c1).rotateRight 12
      let a2 := a1 + b1 + y
      let d2 := (d1 ^^^ a2).rotateRight 8
      let c2 := c1 + d2
      let b2 := (b1 ^^^ c2).rotateRight 7
      .quad a2 b2 c2 d2) }

/-- 42_compress.md R125: G is a bijection on `(a, b, c, d)` for fixed `x, y`. The rule's
corner cases say so, marked derived by the spec ("each step is invertible"). -/
def Obligations.MixingFunctionIsBijective : Prop :=
  ∀ x y : Word, Function.Bijective fun q : Mixed => mixG q.a q.b q.c q.d x y

/-- 10_state.md R21, R22: each row of SIGMA is a permutation of 0 … 15; the four column quadruples together hold
each index once, and so do the four diagonal ones. The entries of SIGMA are the spec's general knowledge G2. -/
def Obligations.TablesArePermutations : Prop :=
  (∀ r : Fin 10, sigma[r].toList.Perm (List.finRange 16)) ∧
  ((quads.toList.take 4).flatMap fun q => [q.a, q.b, q.c, q.d]).Perm (List.finRange 16) ∧
  ((quads.toList.drop 4).flatMap fun q => [q.a, q.b, q.c, q.d]).Perm (List.finRange 16)

/-- 42_compress.md R126, R127: a round is four column applications on the words it is given and then four
diagonal applications on the words the columns leave, each application reading only its own quadruple; ROUND
writes nothing but `v`. Which message words an application takes is the spec's general knowledge G4. -/
def Obligations.RoundIsColumnsThenDiagonals : Prop :=
  ∀ (r : Fin 10) (v m : Vector Word 16) (s : State), s.v = some v → s.m = some m → ∃ w u : Vector Word 16,
    exec (.round r) s = .next { s with v := some u } ∧
    (∀ i : Fin 8, i.val < 4 →
      (⟨w[quads[i].a], w[quads[i].b], w[quads[i].c], w[quads[i].d]⟩ : Mixed) =
        mixG v[quads[i].a] v[quads[i].b] v[quads[i].c] v[quads[i].d] m[sigma[r][2 * i.val]] m[sigma[r][2 * i.val + 1]]) ∧
    (∀ i : Fin 8, 4 ≤ i.val →
      (⟨u[quads[i].a], u[quads[i].b], u[quads[i].c], u[quads[i].d]⟩ : Mixed) =
        mixG w[quads[i].a] w[quads[i].b] w[quads[i].c] w[quads[i].d] m[sigma[r][2 * i.val]] m[sigma[r][2 * i.val + 1]])

/-- 42_compress.md R127, the lanes: the four column applications of a round may run in any order, and so may the
four diagonal ones. R127 is marked derived by the spec. -/
def Obligations.LanesRunInAnyOrder : Prop :=
  ∀ (r : Fin 10) (m v : Vector Word 16) (order : List (Fin 8)),
    (order.Perm [0, 1, 2, 3] → order.foldl (mixAt r m) v = ([0, 1, 2, 3] : List (Fin 8)).foldl (mixAt r m) v) ∧
    (order.Perm [4, 5, 6, 7] → order.foldl (mixAt r m) v = ([4, 5, 6, 7] : List (Fin 8)).foldl (mixAt r m) v)

/-- 42_compress.md R128: FEEDFWD hands back `h[i] xor v[i] xor v[i+8]` and writes no live register. `v` is dead afterwards
(10_state.md R33: "read by FEEDFWD, then dead"); that `m` is too, FEEDFWD ending the COMPRESS it lives in (R34), is the
model's inference (log 8). -/
def Obligations.FeedForwardXorsBothHalves : Prop :=
  ∀ (h : Vector Word 8) (v : Vector Word 16) (s : State), s.v = some v → ∃ h' : Vector Word 8,
    exec (.feedfwd h) s = .next { s with v := none, m := none, ret := some (.words h') } ∧
    ∀ i : Fin 8, h'[i] = h[i] ^^^ v[i.val] ^^^ v[i.val + 8]

/-- IVXOR, ROUND and FEEDFWD run also where P, `v` or `m` has no value: they read free values there, `Config.freeWord`
from the number `draws` on, and write no other register (log 9, the model's choice; the spec gives the transients no
value outside the command that uses them, 10_state.md R33, R34); after FEEDFWD `v` and `m` have no value (log 8). -/
def Obligations.DeadTransientsReadFree : Prop :=
  (∀ s : State, s.pb = none → ∃ h : Vector Word 8,
    exec .ivxor s = .next { s with live := { s.live with h := h }, draws := s.draws + 32 } ∧
    ∀ i : Fin 8, h[i] = iv[i] ^^^ le32 (freeByte (s.draws + 4 * i.val)) (freeByte (s.draws + (4 * i.val + 1)))
      (freeByte (s.draws + (4 * i.val + 2))) (freeByte (s.draws + (4 * i.val + 3)))) ∧
  (∀ (r : Fin 10) (s : State), (s.v = none ∨ s.m = none) →
    exec (.round r) s = .next { s with
      v := some (mixRound (s.m.getD (freeWords (s.draws + 16))) (s.v.getD (freeWords s.draws)) r), draws := s.draws + 32 }) ∧
  (∀ (h : Vector Word 8) (s : State), s.v = none → ∃ h' : Vector Word 8,
    exec (.feedfwd h) s = .next { s with m := none, ret := some (.words h'), draws := s.draws + 32 } ∧
    ∀ i : Fin 8, h'[i] = h[i] ^^^ Config.freeWord (s.draws + i.val) ^^^ Config.freeWord (s.draws + (i.val + 8)))

/-- 42_compress.md R129: COMPRESS of a 64-byte block leaves the state its micro-operations MSGLOAD, VINIT, ROUND 0 to 9 and
FEEDFWD leave, run in that order: the words handed back are the same, no live register is written, and `v` and `m` have
no value (10_state.md R33; for `m`, log 8, the model's inference). -/
def Obligations.CompressIsItsMicroOperations : Prop :=
  ∀ (h : Vector Word 8) (block : List Byte) (t0 t1 f0 f1 : Word) (s : State), block.length = 64 →
    ∃ u : State, u = { s with
        v := none, m := none, ret := some (.words (compressBlock h (byteVector 64 block) t0 t1 f0 f1)) } ∧
      exec (.compress h block t0 t1 f0 f1) s = .next u ∧
      runAll (compressOps h block t0 t1 f0 f1) s = .next u

/-! ### FINAL, its micro-operations, and the small commands -/

/-- 43_finalize.md R140: PAD hands back the pending bytes followed by zeros, and does not modify `buf`. -/
def Obligations.PadFillsWithZeros : Prop :=
  ∀ s : State, s.live.fillOk → ∃ b : Vector Byte 64, exec .pad s = .next { s with ret := some (.block b) } ∧
    ∀ i : Fin 64, b[i] = if i.val < s.live.buflen.toNat then s.live.buf.read i.val else 0

/-- 43_finalize.md R142, 30_encoding.md R78: byte `j` of the digest is byte `j mod 4` of word `j div 4`, for the first
`outlen` bytes, 1 to 32 of them. -/
def Obligations.ExtractTakesLittleEndianBytes : Prop :=
  ∀ (h : Vector Word 8) (outlen : BitVec 6) (s : State), 1 ≤ outlen.toNat → outlen.toNat ≤ 32 → ∃ d : List Byte,
    exec (.extract h outlen) s = .next { s with ret := some (.digest d) } ∧ d.length = outlen.toNat ∧
    ∀ j : Fin 32, j.val < outlen.toNat → d[j.val]? = some ((h[j.val / 4] >>> (8 * (j.val % 4))).setWidth 8)

/-- 43_finalize.md R141: FINAL compresses the padded pending bytes with the counter `T + buflen`, `f0` all-ones
and the live `f1`, answers the first `outlen` bytes of the result, and writes no live register. The response
frame is the spec's decision D4, the wrap of the counter D12; that the transients end is the model's inference (log 8).
-/
def Obligations.FinalAnswersDigestOfLastBlock : Prop :=
  ∀ s : State, s.st = .ready → s.live.fillOk → s.live.f0 = 0 →
    ∃ (b : Vector Byte 64) (t0 t1 : Word) (d : List Byte),
      exec .final s = .next { s with pb := none, v := none, m := none, ret := none, output := s.output ++ 0x00 :: d } ∧
      (∀ i : Fin 64, b[i] = if i.val < s.live.buflen.toNat then s.live.buf.read i.val else 0) ∧
      counterValue t0 t1 = (s.live.counter + s.live.buflen.toNat) % 2 ^ 64 ∧
      d = (List.ofFn fun j : Fin 32 =>
        (((compressBlock s.live.h b t0 t1 0xFFFFFFFF s.live.f1)[j.val / 4] >>> (8 * (j.val % 4))).setWidth 8 : Byte)).take
          s.live.outlen.toNat

/-- 43_finalize.md R141, 60_exceptions.md R151, R158: FINAL on a live flag that is set is the fatal fault
F_FINALFLAG, never a digest. Rests on the spec's decisions D4, D10 and D30. -/
def Obligations.FinalGuardsTheLiveFlag : Prop :=
  ∀ s : State, s.st = .ready → s.live.f0 ≠ 0 →
    exec .final s = .next { s with st := .faulted, output := s.output ++ [0x06] }

/-- 43_finalize.md R143 (b): FINAL, an empty APPEND and FINAL again answer the same digest twice and write no
register. -/
def Obligations.FinalIsIdempotent : Prop :=
  ∀ s : State, s.st = .ready → s.live.fillOk → s.live.f0 = 0 → ∃ (d : List Byte) (t : State),
    runAll [.final, .append [], .final] s = .next t ∧ t.live = s.live ∧ t.st = s.st ∧
    t.output = s.output ++ (Response.bytes d).frame ++ (Response.count 0).frame ++ (Response.bytes d).frame

/-- 43_finalize.md R143 (c), 41_append.md R116: a FINAL in the middle changes neither the digest that follows nor the
registers. -/
def Obligations.FinalDoesNotEndTheMessage : Prop :=
  ∀ (data : List Byte) (s : State), s.st = .ready → s.live.fillOk → s.live.f0 = 0 →
    ∃ (d d' : List Byte) (t u : State),
      runAll [.final, .append data, .final] s = .next t ∧ runAll [.append data, .final] s = .next u ∧
      t.live = u.live ∧
      t.output = s.output ++ (Response.bytes d).frame ++ (Response.count data.length).frame ++ (Response.bytes d').frame ∧
      u.output = s.output ++ (Response.count data.length).frame ++ (Response.bytes d').frame

/-- 43_finalize.md R143 (d): the digest of HASH does not depend on how the data is cut into APPEND commands, nor on the
engine that was there before (the spec's decision D8). -/
def Obligations.HashDoesNotDependOnTheSplit : Prop :=
  ∀ (outlen : Int) (key salt pers : List Byte) (pieces pieces' : List (List Byte)) (s s' : State),
    s.st ≠ .faulted → s'.st ≠ .faulted → s.live.buf.wf = true → s'.live.buf.wf = true →
    ValidOperands outlen key salt pers → pieces.flatten = pieces'.flatten →
    ∃ (d before before' : List Byte) (t t' : State),
      runAll (hashCommands outlen key salt pers pieces) s = .next t ∧
      runAll (hashCommands outlen key salt pers pieces') s' = .next t' ∧
      t.output = before ++ (Response.bytes d).frame ∧ t'.output = before' ++ (Response.bytes d).frame ∧
      (d.length : Int) = outlen

/-- 10_state.md R28, R38: no sequence of commands reveals a byte of `buf` that is not pending. Two machines that
agree on the status, the registers and the pending bytes give the same answers to every command sequence, and
still agree. R28's last clause is the spec's decision D13. -/
def Obligations.NoCommandReadsStaleBytes : Prop :=
  ∀ (is : List Instr) (s s' t : State), (∀ i ∈ is, i.isCommand = true) → s.st = s'.st → s.live.Agree s'.live →
    s.live.buf.wf = true → s'.live.buf.wf = true → s.live.fillOk → runAll is s = .next t →
    ∃ (t' : State) (answers : List Byte), runAll is s' = .next t' ∧ t.output = s.output ++ answers ∧
      t'.output = s'.output ++ answers ∧ t.st = t'.st ∧ t.live.Agree t'.live

/-- 43_finalize.md R144, R145: BLKSZ answers Size(64) and OUTSZ Size(outlen); neither changes anything else. The
response frame is the spec's decision D4, the precondition D27. -/
def Obligations.SizeQueriesAnswer : Prop :=
  ∀ s : State, s.st = .ready →
    exec .blksz s = .next { s with output := s.output ++ [0x00, 0x40] } ∧
    exec .outsz s = .next { s with output := s.output ++ [0x00, s.live.outlen.setWidth 8] }

/-- 43_finalize.md R146: RESET in READY answers E_UNSUPPORTED and makes the engine FAULTED; in EMPTY it answers
E_NOTREADY. Rests on the spec's decisions D4, D5 and D11. -/
def Obligations.ResetCommandSignalsUnsupported : Prop :=
  (∀ s : State, s.st = .ready → exec .reset s = .next { s with st := .faulted, output := s.output ++ [0x07] }) ∧
  (∀ s : State, s.st = .empty → exec .reset s = .next { s with output := s.output ++ [0x08] })

/-- BUF has 64 cells (20_memory.md R50): where `buflen` is out of the range the spec gives it, the operations that would
reach past cell 63 stop by name (log 14, the model's choice); an empty APPEND reaches no cell. -/
def Obligations.NoCellPastTheBuffer : Prop :=
  ∀ s : State, 64 < s.live.buflen.toNat →
    (∀ x, exec (.absorb1 x) s = .fault .noSuchCell) ∧ exec .pad s = .fault .noSuchCell ∧
    (∀ x data, s.st = .ready → exec (.append (x :: data)) s = .fault .noSuchCell) ∧
    (s.st = .ready → s.live.f0 = 0 → exec .final s = .fault .noSuchCell) ∧
    (∀ key, exec (.keyblk key) s = .fault .noSuchCell)

/-- 20_memory.md R64, 70_reset_and_hazards.md R180: a command issued before the response to the one before it has no
step, and neither has an illegal opcode byte with more bytes behind it. That bytes behind a frame at the port are such
a command is the model's choice (log 4); that there is no step is the spec's decision D17. -/
def Obligations.SecondCommandInFlightHasNoStep : Prop :=
  ∀ (s : State) (b : Byte) (rest : List Byte), s.seq = none →
    ((∃ i : Instr, i.WellFormed ∧ i.isCommand = true ∧ s.port = frameOf i ++ b :: rest) ∨
      (∃ op : Byte, (op = 0 ∨ 6 < op.toNat) ∧ s.port = op :: b :: rest)) →
    step s = .refused .commandInFlight

end
end

