-- ==== Sys2Proof/Laws/Memory.lean ====
section
/-! SUPPORT. The laws of BUF: a read after a write, and that every write keeps the canonical form. -/

namespace Sys2Proof.Machine

/-- What the canonical form of a non-empty memory says. -/
theorem Memory.wf_cons {k : Nat} {y : Byte} {rest : Memory} :
    Memory.wf ((k, y) :: rest) = true ↔
      k < 64 ∧ y ≠ Memory.unlisted ∧ (∀ c ∈ rest, k < c.1) ∧ Memory.wf rest = true := by
  simp [Memory.wf, and_assoc]

/-- A cell below every listed address is unlisted. -/
theorem Memory.read_of_lt {b : Memory} {a : Nat} (h : ∀ c ∈ b, a < c.1) : b.read a = Memory.unlisted := by
  induction b with
  | nil => rfl
  | cons c rest ih =>
    obtain ⟨k, y⟩ := c
    have hk : a < k := h (k, y) (by simp)
    have : k ≠ a := by omega
    simp only [Memory.read, this, if_false]
    exact ih fun c hc => h c (by simp [hc])

/-- The addresses after a write: the ones before it and perhaps the written one. -/
theorem Memory.mem_write {b : Memory} {a : Nat} {x : Byte} {c : Host.Cell} (h : c ∈ b.write a x) : c = (a, x) ∨ c ∈ b := by
  induction b with
  | nil =>
    simp only [Memory.write] at h
    split at h <;> simp_all
  | cons d rest ih =>
    obtain ⟨k, y⟩ := d
    simp only [Memory.write] at h
    split at h
    · split at h <;> simp_all
    · split at h
      · split at h
        · exact .inr (by simp [h])
        · rcases List.mem_cons.1 h with h | h
          · exact .inl h
          · exact .inr (by simp [h])
      · rcases List.mem_cons.1 h with h | h
        · exact .inr (by simp [h])
        · rcases ih h with h | h
          · exact .inl h
          · exact .inr (by simp [h])

/-- Every write to a cell that exists keeps the canonical form. -/
theorem Memory.write_wf {b : Memory} {a : Nat} (x : Byte) (hb : b.wf = true) (ha : a < 64) : (b.write a x).wf = true := by
  induction b with
  | nil =>
    simp only [Memory.write]
    split <;> simp_all [Memory.wf]
  | cons d rest ih =>
    obtain ⟨k, y⟩ := d
    obtain ⟨hk, hy, hlt, hrest⟩ := Memory.wf_cons.1 hb
    simp only [Memory.write]
    split
    · rename_i hak
      split
      · exact hb
      · rename_i hx
        refine Memory.wf_cons.2 ⟨ha, hx, ?_, hb⟩
        intro c hc
        rcases List.mem_cons.1 hc with h | h
        · simp [h, hak]
        · exact Nat.lt_trans hak (hlt c h)
    · split
      · rename_i hak
        split
        · exact hrest
        · rename_i hx
          exact Memory.wf_cons.2 ⟨ha, hx, fun c hc => hak ▸ hlt c hc, hrest⟩
      · rename_i h1 h2
        refine Memory.wf_cons.2 ⟨hk, hy, ?_, ih hrest⟩
        intro c hc
        rcases Memory.mem_write hc with h | h
        · simp only [h]
          omega
        · exact hlt c h

/-- A read after a write. -/
theorem Memory.read_write {b : Memory} (hb : b.wf = true) (a : Nat) (x : Byte) (a' : Nat) :
    (b.write a x).read a' = if a' = a then x else b.read a' := by
  induction b with
  | nil =>
    by_cases h : a' = a
    · subst h
      by_cases hx : x = Memory.unlisted <;> simp [Memory.write, Memory.read, hx]
    · have : a ≠ a' := fun e => h e.symm
      by_cases hx : x = Memory.unlisted <;> simp [Memory.write, Memory.read, hx, h, this]
  | cons d rest ih =>
    obtain ⟨k, y⟩ := d
    obtain ⟨hk, hy, hlt, hrest⟩ := Memory.wf_cons.1 hb
    simp only [Memory.write]
    split
    · rename_i hak
      have hall : ∀ c ∈ (k, y) :: rest, a < c.1 := by
        intro c hc
        rcases List.mem_cons.1 hc with h | h
        · simp [h, hak]
        · exact Nat.lt_trans hak (hlt c h)
      split
      · rename_i hx
        by_cases h : a' = a
        · subst h
          simp [Memory.read_of_lt hall, hx]
        · simp [h]
      · by_cases h : a' = a
        · subst h
          simp [Memory.read]
        · have : a ≠ a' := fun e => h e.symm
          simp [Memory.read, h, this]
    · split
      · rename_i hak
        subst hak
        split
        · rename_i hx
          by_cases h : a' = a
          · subst h
            simp [Memory.read_of_lt hlt, hx]
          · have : a ≠ a' := fun e => h e.symm
            simp [Memory.read, h, this]
        · by_cases h : a' = a
          · subst h
            simp [Memory.read]
          · have : a ≠ a' := fun e => h e.symm
            simp [Memory.read, h, this]
      · rename_i h1 h2
        by_cases hka : k = a'
        · subst hka
          have : k ≠ a := fun e => h2 e.symm
          simp [Memory.read, this]
        · simp [Memory.read, hka, ih hrest]

/-- A write is read back. -/
theorem Memory.read_write_same {b : Memory} (hb : b.wf = true) (a : Nat) (x : Byte) : (b.write a x).read a = x := by
  simp [Memory.read_write hb]

/-- A write leaves every other cell alone. -/
theorem Memory.read_write_other {b : Memory} (hb : b.wf = true) {a a' : Nat} (x : Byte) (h : a' ≠ a) :
    (b.write a x).read a' = b.read a' := by
  simp [Memory.read_write hb, h]

end Sys2Proof.Machine
end

