-- ==== Sys2Proof/Laws/State.lean ====
section
/-! SUPPORT. The fields of a state after each shared update of it: one lemma a field. -/

namespace Sys2Proof.Machine

section respond
variable (s : State) (r : Response)

@[simp] theorem State.respond_st : (s.respond r).st = s.st := rfl
@[simp] theorem State.respond_live : (s.respond r).live = s.live := rfl
@[simp] theorem State.respond_pb : (s.respond r).pb = s.pb := rfl
@[simp] theorem State.respond_v : (s.respond r).v = s.v := rfl
@[simp] theorem State.respond_m : (s.respond r).m = s.m := rfl
@[simp] theorem State.respond_ret : (s.respond r).ret = s.ret := rfl
@[simp] theorem State.respond_seq : (s.respond r).seq = s.seq := rfl
@[simp] theorem State.respond_input : (s.respond r).input = s.input := rfl
@[simp] theorem State.respond_plan : (s.respond r).plan = s.plan := rfl
@[simp] theorem State.respond_output : (s.respond r).output = s.output ++ r.frame := rfl
@[simp] theorem State.respond_draws : (s.respond r).draws = s.draws := rfl

end respond

section endTransients
variable (s : State)

@[simp] theorem State.endTransients_st : s.endTransients.st = s.st := rfl
@[simp] theorem State.endTransients_live : s.endTransients.live = s.live := rfl
@[simp] theorem State.endTransients_pb : s.endTransients.pb = none := rfl
@[simp] theorem State.endTransients_v : s.endTransients.v = none := rfl
@[simp] theorem State.endTransients_m : s.endTransients.m = none := rfl
@[simp] theorem State.endTransients_ret : s.endTransients.ret = none := rfl
@[simp] theorem State.endTransients_seq : s.endTransients.seq = s.seq := rfl
@[simp] theorem State.endTransients_input : s.endTransients.input = s.input := rfl
@[simp] theorem State.endTransients_plan : s.endTransients.plan = s.plan := rfl
@[simp] theorem State.endTransients_output : s.endTransients.output = s.output := rfl
@[simp] theorem State.endTransients_draws : s.endTransients.draws = s.draws := rfl

end endTransients

section endCompression
variable (s : State)

@[simp] theorem State.endCompression_st : s.endCompression.st = s.st := rfl
@[simp] theorem State.endCompression_live : s.endCompression.live = s.live := rfl
@[simp] theorem State.endCompression_pb : s.endCompression.pb = s.pb := rfl
@[simp] theorem State.endCompression_v : s.endCompression.v = none := rfl
@[simp] theorem State.endCompression_m : s.endCompression.m = none := rfl
@[simp] theorem State.endCompression_ret : s.endCompression.ret = s.ret := rfl
@[simp] theorem State.endCompression_seq : s.endCompression.seq = s.seq := rfl
@[simp] theorem State.endCompression_input : s.endCompression.input = s.input := rfl
@[simp] theorem State.endCompression_plan : s.endCompression.plan = s.plan := rfl
@[simp] theorem State.endCompression_output : s.endCompression.output = s.output := rfl
@[simp] theorem State.endCompression_draws : s.endCompression.draws = s.draws := rfl

end endCompression

section absorbed
variable (s : State) (n : Nat) (l : Live)

/-- All fields at once. -/
theorem State.absorbed_eq : s.absorbed n l = { s with
    live := l, v := if s.live.compresses n then none else s.v, m := if s.live.compresses n then none else s.m } := by
  unfold State.absorbed; split <;> rfl

@[simp] theorem State.absorbed_st : (s.absorbed n l).st = s.st := by rw [State.absorbed_eq]
@[simp] theorem State.absorbed_live : (s.absorbed n l).live = l := by rw [State.absorbed_eq]
@[simp] theorem State.absorbed_pb : (s.absorbed n l).pb = s.pb := by rw [State.absorbed_eq]
@[simp] theorem State.absorbed_v : (s.absorbed n l).v = if s.live.compresses n then none else s.v := by rw [State.absorbed_eq]
@[simp] theorem State.absorbed_m : (s.absorbed n l).m = if s.live.compresses n then none else s.m := by rw [State.absorbed_eq]
@[simp] theorem State.absorbed_ret : (s.absorbed n l).ret = s.ret := by rw [State.absorbed_eq]
@[simp] theorem State.absorbed_seq : (s.absorbed n l).seq = s.seq := by rw [State.absorbed_eq]
@[simp] theorem State.absorbed_input : (s.absorbed n l).input = s.input := by rw [State.absorbed_eq]
@[simp] theorem State.absorbed_plan : (s.absorbed n l).plan = s.plan := by rw [State.absorbed_eq]
@[simp] theorem State.absorbed_output : (s.absorbed n l).output = s.output := by rw [State.absorbed_eq]
@[simp] theorem State.absorbed_draws : (s.absorbed n l).draws = s.draws := by rw [State.absorbed_eq]

/-- With room for all the bytes nothing is compressed. -/
theorem State.absorbed_room {s : State} {n : Nat} (l : Live) (h : s.live.buflen.toNat + n ≤ 64) :
    s.absorbed n l = { s with live := l } := by
  simp [State.absorbed, Live.compresses, Nat.not_lt.2 h]

/-- With more than 64 bytes in all a block is compressed. -/
theorem State.absorbed_over {s : State} {n : Nat} (l : Live) (h : 64 < s.live.buflen.toNat + n) :
    s.absorbed n l = { s with live := l, v := none, m := none } := by
  simp [State.absorbed, Live.compresses, h, State.endCompression]

end absorbed

section raiseError
variable (code : ErrorCode) (s : State)

@[simp] theorem raiseError_st : (raiseError code s).st = if code.fatal then .faulted else s.st := rfl
@[simp] theorem raiseError_live : (raiseError code s).live = s.live := rfl
@[simp] theorem raiseError_pb : (raiseError code s).pb = s.pb := rfl
@[simp] theorem raiseError_v : (raiseError code s).v = s.v := rfl
@[simp] theorem raiseError_m : (raiseError code s).m = s.m := rfl
@[simp] theorem raiseError_ret : (raiseError code s).ret = s.ret := rfl
@[simp] theorem raiseError_seq : (raiseError code s).seq = s.seq := rfl
@[simp] theorem raiseError_input : (raiseError code s).input = s.input := rfl
@[simp] theorem raiseError_plan : (raiseError code s).plan = s.plan := rfl
@[simp] theorem raiseError_output : (raiseError code s).output = s.output ++ [code.number] := rfl
@[simp] theorem raiseError_draws : (raiseError code s).draws = s.draws := rfl

end raiseError

/-- A non-fatal error only sends its response (60_exceptions.md R157). -/
theorem raiseError_nonfatal {code : ErrorCode} (s : State) (hc : code.fatal = false) :
    raiseError code s = s.respond (.err code) := by
  simp [raiseError, hc]

/-- A fatal error sends its response and makes the engine FAULTED (60_exceptions.md R158). -/
theorem raiseError_fatal {code : ErrorCode} (s : State) (hc : code.fatal = true) :
    raiseError code s = { s with st := .faulted }.respond (.err code) := by
  simp [raiseError, hc]

section taken
variable (s : State)

@[simp] theorem State.taken_st : s.taken.st = s.st := by unfold State.taken; split <;> rfl
@[simp] theorem State.taken_live : s.taken.live = s.live := by unfold State.taken; split <;> rfl
@[simp] theorem State.taken_pb : s.taken.pb = s.pb := by unfold State.taken; split <;> rfl
@[simp] theorem State.taken_v : s.taken.v = s.v := by unfold State.taken; split <;> rfl
@[simp] theorem State.taken_m : s.taken.m = s.m := by unfold State.taken; split <;> rfl
@[simp] theorem State.taken_ret : s.taken.ret = s.ret := by unfold State.taken; split <;> rfl
@[simp] theorem State.taken_seq : s.taken.seq = s.seq := by unfold State.taken; split <;> rfl
@[simp] theorem State.taken_input : s.taken.input = [] := by unfold State.taken; split <;> simp_all
@[simp] theorem State.taken_plan : s.taken.plan = if s.input = [] then s.plan.tail else s.plan := by
  unfold State.taken; split <;> simp_all
@[simp] theorem State.taken_output : s.taken.output = s.output := by unfold State.taken; split <;> rfl
@[simp] theorem State.taken_draws : s.taken.draws = s.draws := by unfold State.taken; split <;> rfl

/-- The port with bytes at hand. -/
theorem State.port_of_input {s : State} (h : s.input ≠ []) : s.port = s.input := by
  unfold State.port; split <;> simp_all

/-- The port when the host sends its next frame. -/
theorem State.port_of_plan {s : State} {frame : List Byte} {later : List (List Byte)} (h : s.input = [])
    (hp : s.plan = frame :: later) : s.port = frame := by
  simp [State.port, h, hp]

/-- The port when the host sends nothing more. -/
theorem State.port_of_nothing {s : State} (h : s.input = []) (hp : s.plan = []) : s.port = [] := by
  simp [State.port, h, hp]

/-- Taking the bytes at hand. -/
theorem State.taken_of_input {s : State} (h : s.input ≠ []) : s.taken = { s with input := [] } := by
  unfold State.taken; split <;> simp_all

/-- Taking the host's next frame. -/
theorem State.taken_of_plan {s : State} {frame : List Byte} {later : List (List Byte)} (h : s.input = [])
    (hp : s.plan = frame :: later) : s.taken = { s with plan := later } := by
  simp [State.taken, h, hp]

end taken

section compressDeferred
variable (l : Live)

@[simp] theorem Live.compressDeferred_f0 : l.compressDeferred.f0 = l.f0 := rfl
@[simp] theorem Live.compressDeferred_f1 : l.compressDeferred.f1 = l.f1 := rfl
@[simp] theorem Live.compressDeferred_buf : l.compressDeferred.buf = l.buf := rfl
@[simp] theorem Live.compressDeferred_buflen : l.compressDeferred.buflen = 0 := rfl
@[simp] theorem Live.compressDeferred_outlen : l.compressDeferred.outlen = l.outlen := rfl
@[simp] theorem Live.compressDeferred_t0 : l.compressDeferred.t0 = (counterAdd l.t0 l.t1 64).1 := rfl
@[simp] theorem Live.compressDeferred_t1 : l.compressDeferred.t1 = (counterAdd l.t0 l.t1 64).2 := rfl
@[simp] theorem Live.compressDeferred_h : l.compressDeferred.h = compressBlock l.h l.buf.block
    (counterAdd l.t0 l.t1 64).1 (counterAdd l.t0 l.t1 64).2 l.f0 l.f1 := rfl

end compressDeferred

end Sys2Proof.Machine
end

