-- ==== Sys2Proof/Laws/Ops.lean ====
section
/-! SUPPORT. One spec lemma per shared operation: what it can do, to be cited where a proof would
otherwise unfold it. -/

namespace Sys2Proof.Machine

/-! ### Counter -/

/-- The counter add, as one number modulo 2⁶⁴. -/
theorem counterAdd_value (t0 t1 n : Word) :
    counterValue (counterAdd t0 t1 n).1 (counterAdd t0 t1 n).2 = (counterValue t0 t1 + n.toNat) % 2 ^ 64 := by
  have h0 := t0.isLt
  have ht1 := t1.isLt
  have hn := n.isLt
  have h1 : (1 : Word).toNat = 1 := rfl
  simp only [counterAdd, counterValue, carryOut, add32, decide_eq_true_eq, BitVec.lt_def, BitVec.toNat_add]
  split <;> (try simp only [BitVec.toNat_add, h1]) <;> omega

/-- The words of a counter are fixed by its value. -/
theorem counterValue_words (t0 t1 : Word) :
    t0.toNat = counterValue t0 t1 % 2 ^ 32 ∧ t1.toNat = counterValue t0 t1 / 2 ^ 32 := by
  have h0 := t0.isLt
  simp only [counterValue]
  omega

/-- Compressing the deferred block advances the counter by 64. -/
theorem Live.compressDeferred_counter (l : Live) : l.compressDeferred.counter = (l.counter + 64) % 2 ^ 64 := by
  simp [Live.counter, counterAdd_value]

/-! ### The block sequencer -/

/-- A store with room in the buffer. -/
theorem Live.store_ok {l : Live} (x : Byte) (h : l.buflen.toNat < 64) :
    l.store x = .ok { l with buf := l.buf.write l.buflen.toNat x, buflen := l.buflen + 1 } := by
  simp [Live.store, h]

/-- A store past the buffer. -/
theorem Live.store_error {l : Live} (x : Byte) (h : ¬ l.buflen.toNat < 64) : l.store x = .error .noSuchCell := by
  simp [Live.store, h]

/-- The fill after one more byte. -/
theorem buflen_succ {n : BitVec 7} (h : n.toNat < 64) : (n + 1).toNat = n.toNat + 1 := by
  have h1 : (1 : BitVec 7).toNat = 1 := rfl
  rw [BitVec.toNat_add, h1]
  omega

/-- ABSORB1 with room in the buffer. -/
theorem Live.absorb1_room {l : Live} (x : Byte) (h : l.buflen.toNat < 64) :
    l.absorb1 x = .ok { l with buf := l.buf.write l.buflen.toNat x, buflen := l.buflen + 1 } := by
  have : l.buflen ≠ 64 := by
    intro e
    simp [e] at h
  rw [Live.absorb1, if_neg this, Live.store_ok x h]

/-- ABSORB1 with a deferred block. -/
theorem Live.absorb1_full {l : Live} (x : Byte) (h : l.buflen = 64) :
    l.absorb1 x = .ok { l.compressDeferred with buf := l.buf.write 0 x, buflen := 1 } := by
  simp [Live.absorb1, h, Live.store]

/-- ABSORB1 with an impossible fill. -/
theorem Live.absorb1_past {l : Live} (x : Byte) (h : 64 < l.buflen.toNat) : l.absorb1 x = .error .noSuchCell := by
  have : l.buflen ≠ 64 := by
    intro e
    simp [e] at h
  rw [Live.absorb1, if_neg this, Live.store_error x (by omega)]

/-- ABSORB1 with a fill in range: it answers, the fill is then between 1 and 64, and flags and output length
are kept. -/
theorem Live.absorb1_ok {l : Live} (x : Byte) (h : l.fillOk) : ∃ l', l.absorb1 x = .ok l' ∧ 1 ≤ l'.buflen.toNat ∧ l'.fillOk ∧
    l'.f0 = l.f0 ∧ l'.f1 = l.f1 ∧ l'.outlen = l.outlen := by
  by_cases h64 : l.buflen.toNat < 64
  · refine ⟨_, Live.absorb1_room x h64, ?_⟩
    simp only [Live.fillOk, buflen_succ h64, and_true]
    omega
  · have : l.buflen = 64 := by
      apply BitVec.eq_of_toNat_eq
      simp only [Live.fillOk] at h
      simp
      omega
    exact ⟨_, Live.absorb1_full x this, by simp [Live.fillOk]⟩

@[simp] theorem Live.absorb_nil (l : Live) : l.absorb [] = .ok l := rfl

/-- Absorbing one byte more at the front. -/
theorem Live.absorb_cons (l : Live) (x : Byte) (xs : List Byte) :
    l.absorb (x :: xs) = (l.absorb1 x).bind fun l' => l'.absorb xs := by
  rw [Live.absorb]
  cases l.absorb1 x <;> rfl

/-- Absorbing one sequence after another. -/
theorem Live.absorb_append (xs ys : List Byte) (l : Live) :
    l.absorb (xs ++ ys) = (l.absorb xs).bind fun l' => l'.absorb ys := by
  induction xs generalizing l with
  | nil => rfl
  | cons x xs ih =>
    rw [List.cons_append, Live.absorb_cons, Live.absorb_cons]
    cases l.absorb1 x with
    | error f => rfl
    | ok l' => exact ih l'

/-- Absorbing with a fill in range: it answers, the fill stays in range, flags and output length are kept. -/
theorem Live.absorb_ok (xs : List Byte) {l : Live} (h : l.fillOk) : ∃ l', l.absorb xs = .ok l' ∧ l'.fillOk ∧
    l'.f0 = l.f0 ∧ l'.f1 = l.f1 ∧ l'.outlen = l.outlen := by
  induction xs generalizing l with
  | nil => exact ⟨l, rfl, h, rfl, rfl, rfl⟩
  | cons x xs ih =>
    obtain ⟨l1, e1, -, h1, a1, b1, c1⟩ := Live.absorb1_ok x h
    obtain ⟨l2, e2, h2, a2, b2, c2⟩ := ih h1
    exact ⟨l2, by rw [Live.absorb_cons, e1]; exact e2, h2, a2.trans a1, b2.trans b1, c2.trans c1⟩

/-- One byte absorbed keeps the canonical form of BUF. -/
theorem Live.absorb1_wf {l l' : Live} {x : Byte} (hw : l.buf.wf = true) (h : l.absorb1 x = .ok l') : l'.buf.wf = true := by
  by_cases h64 : l.buflen.toNat < 64
  · rw [Live.absorb1_room x h64] at h
    cases h
    exact Memory.write_wf x hw h64
  · by_cases hp : 64 < l.buflen.toNat
    · rw [Live.absorb1_past x hp] at h
      cases h
    · have : l.buflen = 64 := by
        apply BitVec.eq_of_toNat_eq
        simp
        omega
      rw [Live.absorb1_full x this] at h
      cases h
      exact Memory.write_wf x hw (by omega)

/-- Bytes absorbed keep the canonical form of BUF. -/
theorem Live.absorb_wf (xs : List Byte) {l l' : Live} (hw : l.buf.wf = true) (h : l.absorb xs = .ok l') : l'.buf.wf = true := by
  induction xs generalizing l with
  | nil =>
    cases h
    exact hw
  | cons x xs ih =>
    rw [Live.absorb_cons] at h
    cases e : l.absorb1 x with
    | error f =>
      rw [e] at h
      cases h
    | ok l1 =>
      rw [e] at h
      exact ih (Live.absorb1_wf hw e) h

/-- One byte absorbed keeps the flags and the output length. -/
theorem Live.absorb1_keeps {l l' : Live} {x : Byte} (h : l.absorb1 x = .ok l') :
    l'.f0 = l.f0 ∧ l'.f1 = l.f1 ∧ l'.outlen = l.outlen := by
  by_cases hp : l.fillOk
  · obtain ⟨l1, e, -, -, hk⟩ := Live.absorb1_ok x hp
    rw [e] at h
    cases h
    exact hk
  · simp only [Live.fillOk] at hp
    rw [Live.absorb1_past x (by omega)] at h
    cases h

/-- Bytes absorbed keep the flags and the output length. -/
theorem Live.absorb_keeps (xs : List Byte) {l l' : Live} (h : l.absorb xs = .ok l') :
    l'.f0 = l.f0 ∧ l'.f1 = l.f1 ∧ l'.outlen = l.outlen := by
  induction xs generalizing l with
  | nil =>
    cases h
    exact ⟨rfl, rfl, rfl⟩
  | cons x xs ih =>
    rw [Live.absorb_cons] at h
    cases e : l.absorb1 x with
    | error f =>
      rw [e] at h
      cases h
    | ok l1 =>
      rw [e] at h
      obtain ⟨a, b, c⟩ := ih h
      obtain ⟨a', b', c'⟩ := Live.absorb1_keeps e
      exact ⟨a.trans a', b.trans b', c.trans c'⟩

/-- PAD with a fill in range. -/
theorem Live.pad_ok {l : Live} (h : l.fillOk) :
    l.pad = .ok (Vector.ofFn fun i => if i.val < l.buflen.toNat then l.buf.read i.val else 0) := by
  simp only [Live.fillOk] at h
  simp [Live.pad, h]

/-- The digest with a fill in range. -/
theorem Live.digest_ok {l : Live} (h : l.fillOk) : ∃ blk, l.pad = .ok blk ∧
    l.digest = .ok (extractBytes (l.scratch blk).compress l.outlen) := by
  refine ⟨_, Live.pad_ok h, ?_⟩
  simp [Live.digest, Live.pad_ok h]

/-- The 32 bytes of the state words: byte `j` is byte `j mod 4` of word `j div 4` (43_finalize.md R142). -/
theorem stateBytes_eq (h : Vector Word 8) :
    stateBytes h = List.ofFn fun j : Fin 32 => ((h[j.val / 4] >>> (8 * (j.val % 4))).setWidth 8 : Byte) := by
  obtain ⟨⟨l⟩, hl⟩ := h
  match l, hl with
  | [_, _, _, _, _, _, _, _], _ => simp [stateBytes, bytesLE32, wordByte, List.ofFn_succ, Fin.succ]

/-- How many bytes EXTRACT takes. -/
@[simp] theorem extractBytes_length (h : Vector Word 8) (outlen : BitVec 6) :
    (extractBytes h outlen).length = min outlen.toNat 32 := by
  simp [extractBytes, stateBytes_eq]

/-- Byte `j` of the digest. -/
theorem extractBytes_getElem? (h : Vector Word 8) {outlen : BitVec 6} (j : Fin 32) (hj : j.val < outlen.toNat) :
    (extractBytes h outlen)[j.val]? = some ((h[j.val / 4] >>> (8 * (j.val % 4))).setWidth 8) := by
  rw [extractBytes, stateBytes_eq, List.getElem?_take, if_pos hj, List.getElem?_ofFn]
  simp

/-- The length of the digest. -/
theorem Live.digest_length {l : Live} {d : List Byte} (h : l.digest = .ok d) : d.length = min l.outlen.toNat 32 := by
  rw [Live.digest] at h
  split at h <;> cases h
  exact extractBytes_length _ _

/-! ### Operands -/

/-- A block of 64 bytes. -/
theorem blockOf_some {s : List Byte} (h : s.length = 64) : blockOf? s = some (byteVector 64 s) := by
  simp [blockOf?, h]

/-- A block of another length. -/
theorem blockOf_none {s : List Byte} (h : s.length ≠ 64) : blockOf? s = none := by
  simp [blockOf?, h]

/-- INIT accepts exactly the valid operands. -/
theorem constructionError_none {outlen : Int} {key salt pers : List Byte} :
    constructionError outlen key salt pers = none ↔ ValidOperands outlen key salt pers := by
  have hO : (Config.outBytesMax : Int) = 32 := rfl
  simp only [constructionError, ValidOperands, Config.keyBytesMax, Config.saltBytes, Config.persBytes]
  split
  · simp only [reduceCtorEq, false_iff]
    omega
  · split
    · simp only [reduceCtorEq, false_iff]
      omega
    · split
      · simp only [reduceCtorEq, false_iff]
        omega
      · split
        · simp only [reduceCtorEq, false_iff]
          omega
        · simp only [true_iff]
          omega

/-- The construction errors are not fatal. -/
theorem constructionError_nonfatal {outlen : Int} {key salt pers : List Byte} {code : ErrorCode}
    (h : constructionError outlen key salt pers = some code) : code.fatal = false := by
  simp only [constructionError] at h
  split at h
  · cases h
    rfl
  · split at h
    · cases h
      rfl
    · split at h
      · cases h
        rfl
      · split at h <;> cases h
        rfl

/-- A field operand of at most 8 bytes. -/
theorem fieldOperand_short {field : List Byte} (n : Nat) (h : field.length ≤ 8) : fieldOperand field n = field := by
  simp [fieldOperand, h]

/-- A field operand of more than 8 bytes. -/
theorem fieldOperand_long {field : List Byte} (n : Nat) (h : 8 < field.length) : fieldOperand field n = freeBytes n 8 := by
  simp [fieldOperand, Nat.not_le.2 h]

/-- There are as many free bytes as were asked for. -/
@[simp] theorem freeBytes_length (n k : Nat) : (freeBytes n k).length = k := by
  simp [freeBytes]

/-- A field operand has at most 8 bytes. -/
theorem fieldOperand_length (field : List Byte) (n : Nat) : (fieldOperand field n).length ≤ 8 := by
  rw [fieldOperand]
  split <;> simp_all

/-- The key block of a key in the domain. -/
theorem keyBlockOperand_in {key : List Byte} (n : Nat) (h1 : 1 ≤ key.length) (h2 : key.length ≤ 32) :
    keyInDomain key = true ∧ keyBlockOperand key n = keyBlock key := by
  simp [keyBlockOperand, keyInDomain, h1, h2]

/-- The key block of a key outside the domain. -/
theorem keyBlockOperand_out {key : List Byte} (n : Nat) (h : key = [] ∨ 32 < key.length) :
    keyInDomain key = false ∧ keyBlockOperand key n = freeBytes n 64 := by
  have : keyInDomain key = false := by
    rcases h with rfl | h
    · rfl
    · simp [keyInDomain, h]
  simp [keyBlockOperand, this]

/-- MARSHAL of fields of at most 8 bytes draws no free value. -/
theorem execMarshal_short (outlen keylen : Byte) {salt pers : List Byte} (s : State) (hs : salt.length ≤ 8)
    (hp : pers.length ≤ 8) : execMarshal outlen keylen salt pers s = .next { s with pb := some (marshal outlen keylen salt pers) } := by
  simp [execMarshal, fieldOperand_short, hs, hp, State.drawIf, Nat.not_lt.2 hs, Nat.not_lt.2 hp]

/-- What KEYBLK can do with a key in the domain. -/
theorem execKeyblk_in {key : List Byte} (s : State) (h1 : 1 ≤ key.length) (h2 : key.length ≤ 32) : execKeyblk key s =
    match s.live.absorb (keyBlock key) with
    | .ok l => .next (s.absorbed 64 l)
    | .error f => .fault f := by
  simp only [execKeyblk, keyBlockOperand_in s.draws h1 h2, State.drawIf]
  cases s.live.absorb (keyBlock key) with
  | ok l => simp [State.absorbed_eq]
  | error f => rfl

/-- What KEYBLK can do with a key outside the domain. -/
theorem execKeyblk_out {key : List Byte} (s : State) (h : key = [] ∨ 32 < key.length) : execKeyblk key s =
    match s.live.absorb (freeBytes s.draws 64) with
    | .ok l => .next { s.absorbed 64 l with draws := s.draws + 64 }
    | .error f => .fault f := by
  simp only [execKeyblk, keyBlockOperand_out s.draws h, State.drawIf]
  rfl

/-! ### Dispatch and fetch -/

/-- Dispatch with an engine. -/
theorem dispatch_ready {needs : Bool} {s : State} {run : State → Host.Outcome State Fault Refusal} (h : s.st = .ready) :
    dispatch needs s run = run s := by
  simp [dispatch, h]

/-- Dispatch while FAULTED. -/
theorem dispatch_faulted {needs : Bool} {s : State} {run : State → Host.Outcome State Fault Refusal} (h : s.st = .faulted) :
    dispatch needs s run = .next (raiseError .faulted s) := by
  simp [dispatch, h]

/-- Dispatch while EMPTY of a command that needs an engine. -/
theorem dispatch_empty {s : State} {run : State → Host.Outcome State Fault Refusal} (h : s.st = .empty) :
    dispatch true s run = .next (raiseError .notReady s) := by
  simp [dispatch, h]

/-- What dispatch can do: run the command, or answer one of the two dispatch errors. -/
theorem dispatch_cases (needs : Bool) (s : State) (run : State → Host.Outcome State Fault Refusal) :
    (dispatch needs s run = run s ∧ (s.st = .ready ∨ (s.st = .empty ∧ needs = false))) ∨
      (dispatch needs s run = .next (raiseError .faulted s) ∧ s.st = .faulted) ∨
      (dispatch needs s run = .next (raiseError .notReady s) ∧ s.st = .empty ∧ needs = true) := by
  cases hs : s.st <;> cases needs <;> simp [dispatch, hs]

/-- What a step can do when the sequencer is idle. -/
theorem step_idle {s : State} (h : s.seq = none) : step s =
    match decodeFrame s.port with
    | .command i [] => exec i s.taken
    | .illegal _ [] => .next (illegalOpcode s.taken)
    | .command _ (_ :: _) => .refused .commandInFlight
    | .illegal _ (_ :: _) => .refused .commandInFlight
    | .incomplete => .refused .incompleteFrame
    | .empty => .refused .noCommand := by
  simp only [step, fetch, h]
  rcases decodeFrame s.port with ⟨i, _ | _⟩ | ⟨b, _ | _⟩ | _ | _ <;> rfl

/-- What INIT can do: a dispatch error, a construction error that changes nothing but the response, or a new
engine. -/
theorem execInit_cases (outlen : Int) (key salt pers : List Byte) (s : State) :
    (s.st = .faulted ∧ execInit outlen key salt pers s = .next (raiseError .faulted s)) ∨
    (s.st ≠ .faulted ∧ ¬ ValidOperands outlen key salt pers ∧ ∃ code, constructionError outlen key salt pers = some code ∧
      execInit outlen key salt pers s = .next (s.respond (.err code))) ∨
    (s.st ≠ .faulted ∧ ValidOperands outlen key salt pers ∧ ∃ l,
      (s.live.construct outlen key salt pers).absorb (keyInput key) = .ok l ∧
      execInit outlen key salt pers s = .next (({ s with live := l, st := .ready }).endTransients.respond .ok)) := by
  by_cases hs : s.st = .faulted
  · exact .inl ⟨hs, dispatch_faulted hs⟩
  · have hd : execInit outlen key salt pers s = runInit outlen key salt pers s := by
      rcases dispatch_cases false s (runInit outlen key salt pers) with ⟨e, -⟩ | ⟨-, e⟩ | ⟨-, -, e⟩
      · exact e
      · exact absurd e hs
      · cases e
    rw [hd]
    cases hc : constructionError outlen key salt pers with
    | some code =>
      refine .inr (.inl ⟨hs, fun hv => ?_, code, rfl, ?_⟩)
      · rw [constructionError_none.2 hv] at hc
        cases hc
      · rw [runInit, hc, ← raiseError_nonfatal s (constructionError_nonfatal hc)]
    | none =>
      obtain ⟨l, hl, -⟩ := Live.absorb_ok (keyInput key)
        (show (s.live.construct outlen key salt pers).fillOk by simp [Live.fillOk, Live.construct])
      exact .inr (.inr ⟨hs, constructionError_none.1 hc, l, hl, by rw [runInit, hc, hl]⟩)

/-- What APPEND can do. -/
theorem execAppend_cases (data : List Byte) (s : State) :
    (s.st = .faulted ∧ execAppend data s = .next (raiseError .faulted s)) ∨
    (s.st = .empty ∧ execAppend data s = .next (raiseError .notReady s)) ∨
    (s.st = .ready ∧ ∃ l, s.live.absorb data = .ok l ∧
      execAppend data s = .next (({ s with live := l }).endTransients.respond (.count data.length))) ∨
    (s.st = .ready ∧ ∃ f, s.live.absorb data = .error f ∧ execAppend data s = .fault f) := by
  cases hs : s.st with
  | faulted => exact .inl ⟨rfl, dispatch_faulted hs⟩
  | empty => exact .inr (.inl ⟨rfl, dispatch_empty hs⟩)
  | ready =>
    have hd : execAppend data s = runAppend data s := dispatch_ready hs
    cases hl : s.live.absorb data with
    | ok l => exact .inr (.inr (.inl ⟨rfl, l, rfl, by rw [hd, runAppend, hl]; simp [hs]⟩))
    | error f => exact .inr (.inr (.inr ⟨rfl, f, rfl, by rw [hd, runAppend, hl]⟩))

/-- What FINAL can do. -/
theorem execFinal_cases (s : State) :
    (s.st = .faulted ∧ execFinal s = .next (raiseError .faulted s)) ∨
    (s.st = .empty ∧ execFinal s = .next (raiseError .notReady s)) ∨
    (s.st = .ready ∧ s.live.f0 ≠ 0 ∧ execFinal s = .next (raiseError .finalFlag s)) ∨
    (s.st = .ready ∧ s.live.f0 = 0 ∧ ∃ d, s.live.digest = .ok d ∧
      execFinal s = .next (s.endTransients.respond (.bytes d))) ∨
    (s.st = .ready ∧ s.live.f0 = 0 ∧ ∃ f, s.live.digest = .error f ∧ execFinal s = .fault f) := by
  cases hs : s.st with
  | faulted => exact .inl ⟨rfl, dispatch_faulted hs⟩
  | empty => exact .inr (.inl ⟨rfl, dispatch_empty hs⟩)
  | ready =>
    have hd : execFinal s = runFinal s := dispatch_ready hs
    by_cases h0 : s.live.f0 = 0
    · cases hl : s.live.digest with
      | ok d => exact .inr (.inr (.inr (.inl ⟨rfl, h0, d, rfl, by rw [hd, runFinal, hl]; simp [h0]⟩)))
      | error f => exact .inr (.inr (.inr (.inr ⟨rfl, h0, f, rfl, by rw [hd, runFinal, hl]; simp [h0]⟩)))
    · exact .inr (.inr (.inl ⟨rfl, h0, by rw [hd, runFinal, if_pos h0]⟩))

end Sys2Proof.Machine
end

