-- ==== Sys2Proof/Laws/Step.lean ====
section
/-! SUPPORT. Said once: what the decoder can answer, what a command can do, what a step can do when the
sequencer is idle. Proofs about steps cite these instead of unfolding the step. -/

namespace Sys2Proof.Machine

/-! ### The decoder -/

/-- A frame that decodes is a command, and at least its opcode byte is taken. -/
theorem decodeFrame_command {bs rest : List Byte} {i : Instr} (h : decodeFrame bs = .command i rest) :
    i.isCommand = true ∧ ∃ taken, taken ≠ [] ∧ bs = taken ++ rest := by
  cases bs with
  | nil => simp [decodeFrame] at h
  | cons op bs =>
    simp only [decodeFrame] at h
    split at h
    · unfold decodeInit at h
      split at h
      · rename_i ol kl sl pl payload
        split at h
        · cases h
          exact ⟨rfl, op :: ol :: kl :: sl :: pl :: payload.take (kl.toNat + sl.toNat + pl.toNat), by simp, by simp⟩
        · cases h
      · cases h
    · unfold decodeAppend at h
      split at h
      · rename_i n0 n1 n2 n3 payload
        split at h
        · cases h
          exact ⟨rfl, op :: n0 :: n1 :: n2 :: n3 :: payload.take (le32 n0 n1 n2 n3).toNat, by simp, by simp⟩
        · cases h
      · cases h
    all_goals first
      | (cases h; done)
      | (cases h; exact ⟨rfl, [op], by simp, by simp⟩)

/-- An illegal opcode byte is the head of the stream. -/
theorem decodeFrame_illegal {bs rest : List Byte} {b : Byte} (h : decodeFrame bs = .illegal b rest) : bs = b :: rest := by
  cases bs with
  | nil => simp [decodeFrame] at h
  | cons op bs =>
    simp only [decodeFrame] at h
    split at h
    · unfold decodeInit at h
      split at h
      · split at h <;> cases h
      · cases h
    · unfold decodeAppend at h
      split at h
      · split at h <;> cases h
      · cases h
    all_goals first
      | (cases h; done)
      | (cases h; rfl)

/-- An opcode byte outside 0x01 … 0x06 is a frame of one byte (30_encoding.md R86). -/
theorem decodeFrame_of_illegal {b : Byte} (rest : List Byte) (hb : b = 0 ∨ 6 < b.toNat) :
    decodeFrame (b :: rest) = .illegal b rest := by
  rw [decodeFrame]
  split <;> first | rfl | (exfalso; rcases hb with hb | hb <;> simp_all)

/-! ### Commands -/

/-- What a command can do in a state. -/
inductive CommandOutcome (i : Instr) (s : State) : Host.Outcome State Fault Refusal → Prop
  /-- A non-fatal error: only the response. -/
  | error (code : ErrorCode) (hc : code.fatal = false) : CommandOutcome i s (.next (s.respond (.err code)))
  /-- A fatal error: RESET, or FINAL on a live flag that is set. -/
  | fatal (code : ErrorCode) (hs : s.st = .ready) (hi : i = .reset ∨ (i = .final ∧ s.live.f0 ≠ 0)) (hc : code.fatal = true) :
      CommandOutcome i s (.next (raiseError code s))
  /-- An accepted INIT. -/
  | init (outlen : Int) (key salt pers : List Byte) (l : Live) (hi : i = .init outlen key salt pers) (hs : s.st ≠ .faulted)
      (hv : ValidOperands outlen key salt pers) (hl : (s.live.construct outlen key salt pers).absorb (keyInput key) = .ok l) :
      CommandOutcome i s (.next (({ s with live := l, st := .ready }).endTransients.respond .ok))
  /-- An APPEND. -/
  | append (data : List Byte) (l : Live) (hi : i = .append data) (hs : s.st = .ready) (hl : s.live.absorb data = .ok l) :
      CommandOutcome i s (.next (({ s with live := l }).endTransients.respond (.count data.length)))
  /-- A FINAL. -/
  | final (d : List Byte) (hi : i = .final) (hs : s.st = .ready) (h0 : s.live.f0 = 0) (hd : s.live.digest = .ok d) :
      CommandOutcome i s (.next (s.endTransients.respond (.bytes d)))
  /-- A size query. -/
  | size (n : Nat) (hi : (i = .blksz ∧ n = 64) ∨ (i = .outsz ∧ n = s.live.outlen.toNat)) (hs : s.st = .ready) :
      CommandOutcome i s (.next (s.respond (.size n)))
  /-- A reach past the buffer. -/
  | fault (f : Fault) (hs : s.st = .ready) (hf : (∃ data, s.live.absorb data = .error f) ∨ s.live.digest = .error f) :
      CommandOutcome i s (.fault f)

/-- Every command does one of these. -/
theorem exec_command (i : Instr) (s : State) (hc : i.isCommand = true) : CommandOutcome i s (exec i s) := by
  have hnf : raiseError .faulted s = s.respond (.err .faulted) := raiseError_nonfatal s rfl
  have hnr : raiseError .notReady s = s.respond (.err .notReady) := raiseError_nonfatal s rfl
  cases i <;> simp [Instr.isCommand] at hc <;> simp only [exec]
  case init outlen key salt pers =>
    rcases execInit_cases outlen key salt pers s with ⟨-, e⟩ | ⟨-, -, c, hcc, e⟩ | ⟨h, hv, l, hl, e⟩ <;> rw [e]
    · rw [hnf]
      exact .error _ rfl
    · exact .error _ (constructionError_nonfatal hcc)
    · exact .init _ _ _ _ _ rfl h hv hl
  case append data =>
    rcases execAppend_cases data s with ⟨-, e⟩ | ⟨-, e⟩ | ⟨h, l, hl, e⟩ | ⟨h, f, hf, e⟩ <;> rw [e]
    · rw [hnf]
      exact .error _ rfl
    · rw [hnr]
      exact .error _ rfl
    · exact .append _ _ rfl h hl
    · exact .fault _ h (.inl ⟨_, hf⟩)
  case final =>
    rcases execFinal_cases s with ⟨-, e⟩ | ⟨-, e⟩ | ⟨h, h0, e⟩ | ⟨h, h0, d, hd, e⟩ | ⟨h, -, f, hf, e⟩ <;> rw [e]
    · rw [hnf]
      exact .error _ rfl
    · rw [hnr]
      exact .error _ rfl
    · exact .fatal _ h (.inr ⟨rfl, h0⟩) rfl
    · exact .final _ rfl h h0 hd
    · exact .fault _ h (.inr hf)
  all_goals
    first | rw [execBlksz] | rw [execOutsz] | rw [execReset]
    cases hs : s.st with
    | empty =>
      rw [dispatch_empty hs, hnr]
      exact .error _ rfl
    | faulted =>
      rw [dispatch_faulted hs, hnf]
      exact .error _ rfl
    | ready =>
      rw [dispatch_ready hs]
      first
        | exact .size _ (.inl ⟨rfl, rfl⟩) hs
        | exact .size _ (.inr ⟨rfl, rfl⟩) hs
        | exact .fatal _ hs (.inl rfl) rfl

/-- An APPEND with an engine whose fill is in range. -/
theorem execAppend_ready {data : List Byte} {s : State} (hs : s.st = .ready) (hf : s.live.fillOk) :
    ∃ l, s.live.absorb data = .ok l ∧
      execAppend data s = .next (({ s with live := l }).endTransients.respond (.count data.length)) := by
  obtain ⟨l, hl, -⟩ := Live.absorb_ok data hf
  rcases execAppend_cases data s with ⟨h, -⟩ | ⟨h, -⟩ | ⟨-, l', h', e⟩ | ⟨-, f, h', -⟩
  · rw [hs] at h
    cases h
  · rw [hs] at h
    cases h
  · exact ⟨l', h', e⟩
  · rw [hl] at h'
    cases h'

/-- A FINAL with an engine whose fill is in range and whose live flag is clear. -/
theorem execFinal_ready {s : State} (hs : s.st = .ready) (hf : s.live.fillOk) (h0 : s.live.f0 = 0) :
    ∃ d, s.live.digest = .ok d ∧ execFinal s = .next (s.endTransients.respond (.bytes d)) := by
  obtain ⟨blk, -, hd⟩ := Live.digest_ok hf
  rcases execFinal_cases s with ⟨h, -⟩ | ⟨h, -⟩ | ⟨-, h, -⟩ | ⟨-, -, d, h', e⟩ | ⟨-, -, f, h', -⟩
  · rw [hs] at h
    cases h
  · rw [hs] at h
    cases h
  · exact absurd h0 h
  · exact ⟨d, h', e⟩
  · rw [hd] at h'
    cases h'

/-! ### Steps -/

/-- An illegal opcode byte is answered by a non-fatal error. -/
theorem illegalOpcode_eq (s : State) : ∃ code, code.fatal = false ∧ illegalOpcode s = s.respond (.err code) := by
  cases hs : s.st
  · exact ⟨.illCmd, rfl, by rw [illegalOpcode, hs]; exact raiseError_nonfatal s rfl⟩
  · exact ⟨.illCmd, rfl, by rw [illegalOpcode, hs]; exact raiseError_nonfatal s rfl⟩
  · exact ⟨.faulted, rfl, by rw [illegalOpcode, hs]; exact raiseError_nonfatal s rfl⟩

/-- What a step that stops neither by a fault nor by a refusal can do when the sequencer is idle: run the command whose
frame is all the port holds, or answer an illegal opcode byte that is all the port holds. -/
theorem step_idle_next {s t : State} (h : s.seq = none) (ht : step s = .next t) :
    (∃ i, decodeFrame s.port = .command i [] ∧ i.isCommand = true ∧ CommandOutcome i s.taken (.next t)) ∨
    (∃ b code, decodeFrame s.port = .illegal b [] ∧ code.fatal = false ∧ t = s.taken.respond (.err code)) := by
  rw [step_idle h] at ht
  rcases hd : decodeFrame s.port with ⟨i, _ | _⟩ | ⟨b, _ | _⟩ | _ | _ <;> rw [hd] at ht
  · exact .inl ⟨i, rfl, (decodeFrame_command hd).1, ht ▸ exec_command i _ (decodeFrame_command hd).1⟩
  · cases ht
  · obtain ⟨code, hc, e⟩ := illegalOpcode_eq s.taken
    simp only [e] at ht
    cases ht
    exact .inr ⟨b, code, rfl, hc, rfl⟩
  all_goals cases ht

end Sys2Proof.Machine
end

