-- ==== Sys2Proof/Laws/Absorb.lean ====
section
/-! SUPPORT. What absorbing bytes does to the fill, the counter and the pending bytes, and that it and the
digest depend on nothing but what a rule may read. -/

namespace Sys2Proof.Machine

/-- A fill that is in range and not below 64 is 64. -/
theorem Live.full_of_fillOk {l : Live} (hf : l.fillOk) (h : ¬ l.buflen.toNat < 64) : l.buflen = 64 := by
  apply BitVec.eq_of_toNat_eq
  simp only [Live.fillOk] at hf
  simp
  omega

/-- The fill stays in range. -/
theorem Live.absorb_fillOk (xs : List Byte) {l l' : Live} (h : l.absorb xs = .ok l') (hf : l.fillOk) : l'.fillOk := by
  obtain ⟨l1, e, hf', -⟩ := Live.absorb_ok xs hf
  rw [e] at h
  cases h
  exact hf'

/-- Bytes for which there is room: no compression. -/
theorem Live.absorb_room {l l' : Live} (xs : List Byte) (h : l.absorb xs = .ok l') (hr : l.buflen.toNat + xs.length ≤ 64) :
    l'.h = l.h ∧ l'.t0 = l.t0 ∧ l'.t1 = l.t1 ∧ l'.buflen.toNat = l.buflen.toNat + xs.length := by
  induction xs generalizing l with
  | nil =>
    cases h
    exact ⟨rfl, rfl, rfl, rfl⟩
  | cons x xs ih =>
    simp only [List.length_cons] at hr ⊢
    have h64 : l.buflen.toNat < 64 := by omega
    rw [Live.absorb_cons, Live.absorb1_room x h64] at h
    obtain ⟨a, b, c, d⟩ := ih h (by simp only [buflen_succ h64]; omega)
    refine ⟨a, b, c, ?_⟩
    simp only [buflen_succ h64] at d
    omega

/-- The number `c` of compressions, the fill and the counter after absorbing (41_append.md R112). -/
theorem Live.absorb_count (xs : List Byte) {l l' : Live} (h : l.absorb xs = .ok l') (hf : l.fillOk) :
    ∃ c, (l.buflen.toNat + xs.length ≤ 64 → c = 0) ∧
      (64 < l.buflen.toNat + xs.length → c + 1 = (l.buflen.toNat + xs.length + 63) / 64) ∧
      l'.buflen.toNat = l.buflen.toNat + xs.length - 64 * c ∧ l'.counter = (l.counter + 64 * c) % 2 ^ 64 := by
  induction xs generalizing l with
  | nil =>
    cases h
    simp only [Live.fillOk] at hf
    have h0 := l'.t0.isLt
    have h1 := l'.t1.isLt
    refine ⟨0, fun _ => rfl, fun h => absurd h (by simpa using hf), by simp, ?_⟩
    simp only [Live.counter, counterValue]
    omega
  | cons x xs ih =>
    rw [Live.absorb_cons] at h
    obtain ⟨l1, e1, -, hf1, -⟩ := Live.absorb1_ok x hf
    rw [e1] at h
    obtain ⟨c, c1, c2, c3, c4⟩ := ih h hf1
    simp only [List.length_cons]
    by_cases h64 : l.buflen.toNat < 64
    · rw [Live.absorb1_room x h64] at e1
      cases e1
      simp only [buflen_succ h64] at c1 c2 c3
      exact ⟨c, fun h => c1 (by omega), fun h => by rw [c2 (by omega)]; congr 1; omega, by omega, c4⟩
    · have hfull := Live.full_of_fillOk hf h64
      rw [Live.absorb1_full x hfull] at e1
      cases e1
      have hb : l.buflen.toNat = 64 := by
        rw [hfull]
        rfl
      have h1 : (1 : BitVec 7).toNat = 1 := rfl
      have hc : Live.counter { l.compressDeferred with buf := l.buf.write 0 x, buflen := 1 } = (l.counter + 64) % 2 ^ 64 :=
        Live.compressDeferred_counter l
      rw [hc] at c4
      simp only [h1] at c1 c2 c3
      refine ⟨c + 1, by omega, fun h => ?_, by omega, by rw [c4]; omega⟩
      by_cases hx : 1 + xs.length ≤ 64
      · rw [c1 hx]
        omega
      · have := c2 (by omega)
        omega

/-! ### Pending bytes -/

/-- There are `buflen` pending bytes. -/
theorem Live.pending_length (l : Live) : l.pending.length = l.buflen.toNat := by
  simp [Live.pending]

/-- The pending byte at an index. -/
theorem Live.pending_getElem? (l : Live) (i : Nat) :
    l.pending[i]? = if i < l.buflen.toNat then some (l.buf.read i) else none := by
  simp only [Live.pending, List.getElem?_map]
  split
  · rename_i h
    rw [List.getElem?_range h]
    rfl
  · rename_i h
    rw [List.getElem?_eq_none (by simp only [List.length_range]; omega)]
    rfl

/-! ### Engines that agree -/

/-- One byte absorbed by two engines that agree. -/
theorem Live.absorb1_agree {l l' l1 : Live} {x : Byte} (h : l.Agree l') (hw : l.buf.wf = true) (hw' : l'.buf.wf = true)
    (hf : l.fillOk) (e : l.absorb1 x = .ok l1) : ∃ l1', l'.absorb1 x = .ok l1' ∧ l1.Agree l1' := by
  by_cases h64 : l.buflen.toNat < 64
  · rw [Live.absorb1_room x h64] at e
    cases e
    refine ⟨_, Live.absorb1_room x (h.buflen ▸ h64), h.h, h.t0, h.t1, h.f0, h.f1, by simp [h.buflen], h.outlen, ?_⟩
    intro a ha
    simp only [buflen_succ h64] at ha
    simp only [Memory.read_write hw, Memory.read_write hw', ← h.buflen]
    split
    · rfl
    · exact h.pending a (by omega)
  · have hfull := Live.full_of_fillOk hf h64
    rw [Live.absorb1_full x hfull] at e
    cases e
    have hb : l.buf.block = l'.buf.block := by
      simp only [Memory.block]
      congr 1
      funext i
      exact h.pending _ (by rw [hfull]; exact i.isLt)
    refine ⟨_, Live.absorb1_full x (h.buflen ▸ hfull), ?_, ?_, ?_, h.f0, h.f1, rfl, h.outlen, ?_⟩
    · simp only [Live.compressDeferred, h.h, h.t0, h.t1, h.f0, h.f1, hb]
    · simp only [Live.compressDeferred, h.t0, h.t1]
    · simp only [Live.compressDeferred, h.t0, h.t1]
    · intro a ha
      have h1 : (1 : BitVec 7).toNat = 1 := rfl
      simp only [h1] at ha
      simp only [Memory.read_write hw, Memory.read_write hw', if_pos (show a = 0 by omega)]

/-- Bytes absorbed by two engines that agree. -/
theorem Live.absorb_agree (xs : List Byte) {l l' l1 : Live} (h : l.Agree l') (hw : l.buf.wf = true)
    (hw' : l'.buf.wf = true) (hf : l.fillOk) (e : l.absorb xs = .ok l1) :
    ∃ l1', l'.absorb xs = .ok l1' ∧ l1.Agree l1' := by
  induction xs generalizing l l' with
  | nil =>
    cases e
    exact ⟨l', rfl, h⟩
  | cons x xs ih =>
    rw [Live.absorb_cons] at e
    obtain ⟨l2, e2, -, hf2, -⟩ := Live.absorb1_ok x hf
    rw [e2] at e
    obtain ⟨l2', e2', h2⟩ := Live.absorb1_agree h hw hw' hf e2
    obtain ⟨l1', e1', h1⟩ := ih h2 (Live.absorb1_wf hw e2) (Live.absorb1_wf hw' e2') hf2 e
    exact ⟨l1', by rw [Live.absorb_cons, e2']; exact e1', h1⟩

/-- The digests of two engines that agree. -/
theorem Live.digest_agree {l l' : Live} (h : l.Agree l') (hf : l.fillOk) : l.digest = l'.digest := by
  have hf' : l'.fillOk := by
    simp only [Live.fillOk, ← h.buflen]
    exact hf
  have hp : l.pad = l'.pad := by
    rw [Live.pad_ok hf, Live.pad_ok hf']
    congr 2
    funext i
    simp only [← h.buflen]
    split
    · exact h.pending _ ‹_›
    · rfl
  simp only [Live.digest, hp, Live.scratch, h.h, h.t0, h.t1, h.f1, h.buflen, h.outlen]

/-! ### Runs -/

/-- A run of one instruction list after another. -/
theorem runAll_append {xs ys : List Instr} {s t : State} (h : runAll xs s = .next t) : runAll (xs ++ ys) s = runAll ys t := by
  induction xs generalizing s with
  | nil =>
    cases h
    rfl
  | cons x xs ih =>
    rw [runAll] at h
    rw [List.cons_append, runAll]
    cases e : exec x s with
    | next u =>
      rw [e] at h
      exact ih h
    | fault f =>
      rw [e] at h
      cases h
    | refused r =>
      rw [e] at h
      cases h

/-- Absorbing in two goes ends `v` and `m` where absorbing in one does. -/
theorem State.absorbed_absorbed {s : State} {x : Byte} {l1 : Live} (n : Nat) (l : Live) (hf : s.live.fillOk)
    (e : s.live.absorb1 x = .ok l1) : (s.absorbed 1 l1).absorbed n l = s.absorbed (1 + n) l := by
  by_cases h64 : s.live.buflen.toNat < 64
  · rw [Live.absorb1_room x h64] at e
    cases e
    have hc : ∀ b, Live.compresses { s.live with buf := b, buflen := s.live.buflen + 1 } n = s.live.compresses (1 + n) := by
      intro b
      simp only [Live.compresses, buflen_succ h64, decide_eq_decide]
      omega
    rw [State.absorbed_room (s := s) _ (by omega), State.absorbed_eq, State.absorbed_eq]
    simp only [hc]
  · rw [State.absorbed_over (s := s) (n := 1) _ (by omega), State.absorbed_over (s := s) (n := 1 + n) _ (by omega),
      State.absorbed_eq]
    simp

/-- ABSORB1 of each byte in order, as a run. -/
theorem runAll_absorb1 (xs : List Byte) {s : State} {l : Live} (hf : s.live.fillOk) (h : s.live.absorb xs = .ok l) :
    runAll (xs.map .absorb1) s = .next (s.absorbed xs.length l) := by
  induction xs generalizing s with
  | nil =>
    cases h
    exact congrArg _ (State.absorbed_room s.live (n := 0) hf).symm
  | cons x xs ih =>
    rw [Live.absorb_cons] at h
    obtain ⟨l1, e, -, hf1, -⟩ := Live.absorb1_ok x hf
    rw [e] at h
    rw [List.map_cons, runAll, List.length_cons, Nat.add_comm, ← State.absorbed_absorbed _ _ hf e]
    simp only [exec, execAbsorb1, e]
    exact ih (by simpa using hf1) (by rw [State.absorbed_live]; exact h)

end Sys2Proof.Machine
end

