-- ==== Sys2Proof/Laws/Compress.lean ====
section
/-! SUPPORT. One spec lemma per operation of the compression function: byte order, rotation, the words an
application of G reads and writes, and the micro-operations with their transients at hand. -/

namespace Sys2Proof.Machine

/-! ### Words -/

/-- Bit `i` of byte `j` of a little-endian word. -/
theorem le32_getLsbD (b0 b1 b2 b3 : Byte) {j i : Nat} (hj : j < 4) (hi : i < 8) :
    (le32 b0 b1 b2 b3).getLsbD (8 * j + i) = ([b0, b1, b2, b3].getD j 0).getLsbD i := by
  have h0 := b0.isLt
  have h1 := b1.isLt
  have h2 := b2.isLt
  have h3 := b3.isLt
  simp only [le32, BitVec.getLsbD_ofNat, show 8 * j + i < 32 by omega, decide_true, Bool.true_and]
  rw [Nat.add_comm, ← Nat.testBit_shiftRight, Nat.shiftRight_eq_div_pow]
  have low : ∀ n m : Nat, n % 2 ^ 8 = m % 2 ^ 8 → n.testBit i = m.testBit i := by
    intro n m h
    have e := congrArg (·.testBit i) h
    simpa only [Nat.testBit_mod_two_pow, hi, decide_true, Bool.true_and] using e
  have hcase : j = 0 ∨ j = 1 ∨ j = 2 ∨ j = 3 := by omega
  rcases hcase with rfl | rfl | rfl | rfl <;> apply low <;> simp <;> omega

/-- The rotation of the model is the rotation of bit vectors. -/
theorem rotr32_eq (x : Word) (n : RotAmount) : rotr32 x n = x.rotateRight (rotPlaces n) := by
  cases n <;> rfl

/-- The places of a rotation amount. -/
theorem rotPlaces_range (n : RotAmount) : 0 < rotPlaces n ∧ rotPlaces n < 32 := by
  cases n <;> decide

/-- Bit `i` of a rotated word. -/
theorem rotr32_getLsbD (x : Word) (n : RotAmount) {i : Nat} (hi : i < 32) :
    (rotr32 x n).getLsbD i = x.getLsbD ((i + rotPlaces n) % 32) := by
  obtain ⟨hp, hp'⟩ := rotPlaces_range n
  simp only [rotr32, BitVec.getLsbD_or, BitVec.getLsbD_ushiftRight, BitVec.getLsbD_shiftLeft]
  by_cases h : i + rotPlaces n < 32
  · rw [Nat.mod_eq_of_lt h, Nat.add_comm (rotPlaces n) i]
    simp [show i < 32 - rotPlaces n by omega]
  · rw [show (i + rotPlaces n) % 32 = i - (32 - rotPlaces n) by omega, BitVec.getLsbD_of_ge x (rotPlaces n + i) (by omega)]
    simp [hi, show ¬ i < 32 - rotPlaces n by omega]

/-! ### Applications of G -/

/-- The word `k` is one of the four application `i` reads and writes. -/
abbrev InQuad (i : Fin 8) (k : Fin 16) : Prop :=
  k = quads[i].a ∨ k = quads[i].b ∨ k = quads[i].c ∨ k = quads[i].d

/-- A quadruple holds four different indices. -/
theorem quads_distinct (i : Fin 8) : quads[i].a ≠ quads[i].b ∧ quads[i].a ≠ quads[i].c ∧ quads[i].a ≠ quads[i].d ∧
    quads[i].b ≠ quads[i].c ∧ quads[i].b ≠ quads[i].d ∧ quads[i].c ≠ quads[i].d := by
  revert i
  decide

/-- Two different quadruples of the same half share no index. -/
theorem quads_disjoint {i j : Fin 8} (h : i ≠ j) (hb : i.val < 4 ↔ j.val < 4) {k : Fin 16} : InQuad i k → ¬ InQuad j k := by
  revert i j k
  decide

/-- A quadruple's write leaves every other word alone. -/
theorem writeQuad_other (v : Vector Word 16) (q : Quad) (o : Mixed) (k : Fin 16)
    (h : k ≠ q.a ∧ k ≠ q.b ∧ k ≠ q.c ∧ k ≠ q.d) : (writeQuad v q o)[k] = v[k] := by
  obtain ⟨h1, h2, h3, h4⟩ := h
  have ne : ∀ {x : Fin 16}, k ≠ x → x.val ≠ k.val := fun hx e => hx (Fin.ext e.symm)
  simp only [writeQuad, Fin.getElem_fin]
  rw [Vector.getElem_set_ne _ _ (ne h4), Vector.getElem_set_ne _ _ (ne h3), Vector.getElem_set_ne _ _ (ne h2),
    Vector.getElem_set_ne _ _ (ne h1)]

/-- A quadruple's write is read back. -/
theorem writeQuad_own (v : Vector Word 16) (q : Quad) (o : Mixed)
    (h : q.a ≠ q.b ∧ q.a ≠ q.c ∧ q.a ≠ q.d ∧ q.b ≠ q.c ∧ q.b ≠ q.d ∧ q.c ≠ q.d) :
    (⟨(writeQuad v q o)[q.a], (writeQuad v q o)[q.b], (writeQuad v q o)[q.c], (writeQuad v q o)[q.d]⟩ : Mixed) = o := by
  obtain ⟨hab, hac, had, hbc, hbd, hcd⟩ := h
  have ne : ∀ {x y : Fin 16}, x ≠ y → y.val ≠ x.val := fun hx e => hx (Fin.ext e.symm)
  simp only [writeQuad, Fin.getElem_fin]
  rw [Vector.getElem_set_ne _ _ (ne had), Vector.getElem_set_ne _ _ (ne hac), Vector.getElem_set_ne _ _ (ne hab),
    Vector.getElem_set_ne _ _ (ne hbd), Vector.getElem_set_ne _ _ (ne hbc), Vector.getElem_set_ne _ _ (ne hcd),
    Vector.getElem_set_self, Vector.getElem_set_self, Vector.getElem_set_self, Vector.getElem_set_self]

/-- An application leaves every word outside its quadruple alone. -/
theorem mixAt_other (r : Fin 10) (m v : Vector Word 16) {i : Fin 8} {k : Fin 16} (h : ¬ InQuad i k) :
    (mixAt r m v i)[k] = v[k] := by
  simp only [InQuad, not_or] at h
  exact writeQuad_other _ _ _ _ h

/-- An application replaces the words of its quadruple by those of G. -/
theorem mixAt_own (r : Fin 10) (m v : Vector Word 16) (i : Fin 8) :
    (⟨(mixAt r m v i)[quads[i].a], (mixAt r m v i)[quads[i].b], (mixAt r m v i)[quads[i].c], (mixAt r m v i)[quads[i].d]⟩ : Mixed) =
      mixG v[quads[i].a] v[quads[i].b] v[quads[i].c] v[quads[i].d] m[sigma[r][2 * i.val]] m[sigma[r][2 * i.val + 1]] :=
  writeQuad_own _ _ _ (quads_distinct i)

/-! ### Micro-operations with their transients at hand -/

/-- MSGLOAD of a block of 64 bytes. -/
theorem exec_msgload {block : List Byte} (s : State) (h : block.length = 64) :
    exec (.msgload block) s = .next { s with m := some (msgWords (byteVector 64 block)) } := by
  simp only [exec, execMsgload, blockOf_some h]

/-- ROUND with both transients. -/
theorem exec_round {s : State} {v m : Vector Word 16} (r : Fin 10) (hv : s.v = some v) (hm : s.m = some m) :
    exec (.round r) s = .next { s with v := some (mixRound m v r) } := by
  simp only [exec, execRound, State.readM, State.readV, hv, hm, State.drawIf]
  rfl

/-- FEEDFWD with the working vector. -/
theorem exec_feedfwd {s : State} {v : Vector Word 16} (h : Vector Word 8) (hv : s.v = some v) :
    exec (.feedfwd h) s = .next { s with v := none, m := none, ret := some (.words (feedForward h v)) } := by
  simp only [exec, execFeedfwd, State.readV, hv, State.drawIf]
  rfl

end Sys2Proof.Machine
end

