-- ==== Sys2Proof/Laws/PerInstr.lean ====
section
/-! SUPPORT. One statement per instruction as syntax: its kind of encoding. A command has a frame that
begins with its opcode byte (30_encoding.md R84); a micro-operation has a label and no frame (R90). -/

namespace Sys2Proof.Laws.Label

/-- The opcode byte of a command (30_encoding.md R84). -/
def opcode : Instr → Option Byte
  | .init _ _ _ _ => some 0x01
  | .append _ => some 0x02
  | .final => some 0x03
  | .blksz => some 0x04
  | .outsz => some 0x05
  | .reset => some 0x06
  | _ => none

/-- A command's frame begins with its opcode byte; a micro-operation's label is read as an instruction that has
the same label. -/
def Statement (i : Instr) : Prop :=
  (i.isCommand = true → ∃ payload, encode i = .frame ((opcode i).toList ++ payload) ∧ (opcode i).isSome) ∧
  (i.isCommand = false → ∃ code, encode i = .label code ∧ encode (decodeLabel code) = .label code ∧ opcode i = none)

theorem init (outlen : Int) (key salt pers : List Byte) : Statement (.init outlen key salt pers) :=
  ⟨fun _ => ⟨_, rfl, rfl⟩, nofun⟩
theorem append (data : List Byte) : Statement (.append data) := ⟨fun _ => ⟨_, rfl, rfl⟩, nofun⟩
theorem final : Statement .final := ⟨fun _ => ⟨_, rfl, rfl⟩, nofun⟩
theorem blksz : Statement .blksz := ⟨fun _ => ⟨_, rfl, rfl⟩, nofun⟩
theorem outsz : Statement .outsz := ⟨fun _ => ⟨_, rfl, rfl⟩, nofun⟩
theorem reset : Statement .reset := ⟨fun _ => ⟨_, rfl, rfl⟩, nofun⟩
theorem marshal (outlen keylen : Byte) (salt pers : List Byte) : Statement (.marshal outlen keylen salt pers) :=
  ⟨nofun, fun _ => ⟨_, rfl, rfl, rfl⟩⟩
theorem ivxor : Statement .ivxor := ⟨nofun, fun _ => ⟨_, rfl, rfl, rfl⟩⟩
theorem keyblk (key : List Byte) : Statement (.keyblk key) := ⟨nofun, fun _ => ⟨_, rfl, rfl, rfl⟩⟩
theorem absorb1 (x : Byte) : Statement (.absorb1 x) := ⟨nofun, fun _ => ⟨_, rfl, rfl, rfl⟩⟩
theorem ctradd (n : Fin 65) : Statement (.ctradd n) := ⟨nofun, fun _ => ⟨_, rfl, rfl, rfl⟩⟩
theorem msgload (block : List Byte) : Statement (.msgload block) := ⟨nofun, fun _ => ⟨_, rfl, rfl, rfl⟩⟩
theorem vinit (h : Vector Word 8) (t0 t1 f0 f1 : Word) : Statement (.vinit h t0 t1 f0 f1) :=
  ⟨nofun, fun _ => ⟨_, rfl, rfl, rfl⟩⟩
theorem g (a b c d x y : Word) : Statement (.g a b c d x y) := ⟨nofun, fun _ => ⟨_, rfl, rfl, rfl⟩⟩
theorem round (r : Fin 10) : Statement (.round r) := ⟨nofun, fun _ => ⟨_, rfl, rfl, rfl⟩⟩
theorem feedfwd (h : Vector Word 8) : Statement (.feedfwd h) := ⟨nofun, fun _ => ⟨_, rfl, rfl, rfl⟩⟩
theorem compress (h : Vector Word 8) (block : List Byte) (t0 t1 f0 f1 : Word) :
    Statement (.compress h block t0 t1 f0 f1) := ⟨nofun, fun _ => ⟨_, rfl, rfl, rfl⟩⟩
theorem pad : Statement .pad := ⟨nofun, fun _ => ⟨_, rfl, rfl, rfl⟩⟩
theorem extract (h : Vector Word 8) (outlen : BitVec 6) : Statement (.extract h outlen) :=
  ⟨nofun, fun _ => ⟨_, rfl, rfl, rfl⟩⟩
theorem add32 (a b : Word) : Statement (.add32 a b) := ⟨nofun, fun _ => ⟨_, rfl, rfl, rfl⟩⟩
theorem xor32 (a b : Word) : Statement (.xor32 a b) := ⟨nofun, fun _ => ⟨_, rfl, rfl, rfl⟩⟩
theorem rotr32 (x : Word) (n : RotAmount) : Statement (.rotr32 x n) := ⟨nofun, fun _ => ⟨_, rfl, rfl, rfl⟩⟩

end Sys2Proof.Laws.Label
end

