-- ==== Sys2Proof/Tests/Slice0.lean ====
section
/-! SUPPORT. Tests. Expected values stand in spec/95_test_vectors.md and spec/96_test_traces.md, whose row is
named with each test, or are written out from the encoding rules; a witness shows that the hypotheses of a
statement can be met. -/

namespace Sys2Proof.Tests

open Sys2Proof.Machine

/-! ### Small states -/

/-- The state an outcome goes on with. -/
def after : Host.Outcome State Fault Refusal → Option State
  | .next s => some s
  | .fault _ => none
  | .refused _ => none

/-- The chaining value of IN1. -/
def hIN1 : Vector Word 8 :=
  #v[0x6B08E647, 0xBB67AE85, 0x3C6EF372, 0xA54FF53A, 0x510E527F, 0x9B05688C, 0x1F83D9AB, 0x5BE0CD19]

/-- `seq(n)`. -/
def seq (n : Nat) : List Byte := (List.range n).map (BitVec.ofNat 8)

/-- `seq(n)` as cells of BUF, from cell 1 on: cell 0 holds the unlisted value. -/
def seqCells (n : Nat) : Memory := (List.range' 1 (n - 1)).map fun a => (a, BitVec.ofNat 8 a)

/-- A READY machine: IN1 with `n` pending bytes `seq(n)`, output length `outlen`, and the frame bytes `input`. -/
def ready (n : Nat) (outlen : BitVec 6 := 32) (input : List Byte := []) : State :=
  { State.reset with
    st := .ready, input := input,
    live := { Live.reset with h := hIN1, buf := seqCells n, buflen := BitVec.ofNat 7 n, outlen := outlen } }

/-- An EMPTY machine with frame bytes. -/
def empty (input : List Byte) : State := { State.reset with input := input }

/-- A FAULTED machine with frame bytes. -/
def faulted (input : List Byte) : State := { State.reset with st := .faulted, input := input }

/-- The sequencer stands at a micro-operation. -/
def at_ (i : Instr) : State := { ready 0 with seq := some i }

/-- A machine to which the host sends these frames, each after the response to the one before. -/
def sending (frames : List (List Byte)) (s : State) : State := { s with plan := frames }

/-- After a run from power-on in which the host sends these frames: the bytes answered. -/
def answers (frames : List (List Byte)) : Option (List Byte) :=
  match Sys2Proof.core.run frames.length (sending frames State.reset) with
  | .next s => some (s : State).output
  | .fault _ => none
  | .refused _ => none

/-! ### WellFormed: each check refuses an ill-formed term -/

theorem test_wf_init_outlen : (Instr.init (-1) [] [] []).wellFormed = false ∧ (Instr.init 256 [] [] []).wellFormed = false ∧
    (Instr.init 255 [] [] []).wellFormed = true := by decide
theorem test_wf_init_key : (Instr.init 32 (zeros 256) [] []).wellFormed = false := by decide +kernel
theorem test_wf_init_salt : (Instr.init 32 [] (zeros 256) []).wellFormed = false := by decide +kernel
theorem test_wf_init_pers : (Instr.init 32 [] [] (zeros 256)).wellFormed = false := by decide +kernel
theorem test_wf_append (data : List Byte) (h : data.length = 2 ^ 32) : (Instr.append data).wellFormed = false := by
  simp [Instr.wellFormed, h]
theorem test_wf_marshal_outlen : (Instr.marshal 0 0 [] []).wellFormed = false ∧
    (Instr.marshal 33 0 [] []).wellFormed = false := by decide
theorem test_wf_marshal_keylen : (Instr.marshal 32 33 [] []).wellFormed = false := by decide
theorem test_wf_marshal_salt : (Instr.marshal 32 0 (zeros 9) []).wellFormed = false := by decide
theorem test_wf_marshal_pers : (Instr.marshal 32 0 [] (zeros 9)).wellFormed = false := by decide
theorem test_wf_keyblk : (Instr.keyblk []).wellFormed = false ∧ (Instr.keyblk (zeros 33)).wellFormed = false := by decide
theorem test_wf_extract : (Instr.extract hIN1 0).wellFormed = false ∧ (Instr.extract hIN1 33).wellFormed = false := by decide

/-! ### Decode: frames and labels written out from 30_encoding.md R84, R90 -/

/-- P2 step 1 with a one-byte key: opcode 00000001, OL = 32, KL = 1, SL = 0, PL = 8, the key, `"personal"`. -/
theorem test_decode_init : decode (.frame [0b00000001, 0x20, 0x01, 0x00, 0x08, 0xAA, 0x70, 0x65, 0x72, 0x73, 0x6F, 0x6E, 0x61,
      0x6C]) = .command (.init 32 [0xAA] [] [0x70, 0x65, 0x72, 0x73, 0x6F, 0x6E, 0x61, 0x6C]) [] := by decide
/-- A length of 0x00000102 is the four bytes 02 01 00 00. -/
theorem test_decode_append : decode (.frame ([0b00000010, 0x02, 0x01, 0x00, 0x00] ++ seq 258)) =
    .command (.append (seq 258)) [] := by decide +kernel
theorem test_decode_final : decode (.frame [0b00000011]) = .command .final [] := by decide
theorem test_decode_blksz : decode (.frame [0b00000100]) = .command .blksz [] := by decide
theorem test_decode_outsz : decode (.frame [0b00000101]) = .command .outsz [] := by decide
theorem test_decode_reset : decode (.frame [0b00000110]) = .command .reset [] := by decide
theorem test_decode_refuses : decode (.frame [0x00]) = .illegal 0x00 [] ∧ decode (.frame [0x07]) = .illegal 0x07 [] ∧
    decode (.frame [0x81]) = .illegal 0x81 [] ∧ decode (.frame [0x02, 0x01, 0x00, 0x00, 0x00]) = .incomplete ∧
    decode (.frame [0x01, 0x20]) = .incomplete ∧ decode (.frame []) = .empty := by decide
theorem test_decode_param_labels : decodeLabel 0b0000 = .marshal 1 0 [] [] ∧ decodeLabel 0b0001 = .ivxor ∧
    decodeLabel 0b0010 = .keyblk [0] := by decide
theorem test_decode_append_labels : decodeLabel 0b0011 = .absorb1 0 ∧ decodeLabel 0b0100 = .ctradd 0 := by decide
theorem test_decode_compress_labels : decodeLabel 0b0101 = .msgload (zeros 64) ∧
    decodeLabel 0b0110 = .vinit (Vector.replicate 8 0) 0 0 0 0 ∧ decodeLabel 0b0111 = .g 0 0 0 0 0 0 ∧
    decodeLabel 0b1000 = .round 0 ∧ decodeLabel 0b1001 = .feedfwd (Vector.replicate 8 0) ∧
    decodeLabel 0b1010 = .compress (Vector.replicate 8 0) (zeros 64) 0 0 0 0 := by decide
theorem test_decode_finalize_labels : decodeLabel 0b1011 = .pad ∧
    decodeLabel 0b1100 = .extract (Vector.replicate 8 0) 1 := by decide
theorem test_decode_word_labels : decodeLabel 0b1101 = .add32 0 0 ∧ decodeLabel 0b1110 = .xor32 0 0 ∧
    decodeLabel 0b1111 = .rotr32 0 .rot1 := by decide

/-- The opcode table's words: the operand bytes the table does not give are zero. -/
theorem test_table_commands : decodeTableWord 8 0x01 = some (.init 0 [] [] []) ∧ decodeTableWord 8 0x02 = some (.append []) ∧
    decodeTableWord 8 0x03 = some .final ∧ decodeTableWord 8 0x04 = some .blksz ∧ decodeTableWord 8 0x05 = some .outsz ∧
    decodeTableWord 8 0x06 = some .reset ∧ decodeTableWord 24 0x002001 = some (.init 32 [] [] []) := by decide +kernel
theorem test_table_labels : decodeTableWord 4 0x0 = some (.marshal 1 0 [] []) ∧ decodeTableWord 4 0x1 = some .ivxor ∧
    decodeTableWord 4 0xB = some .pad ∧ decodeTableWord 8 0xD = some (.add32 0 0) ∧
    decodeTableWord 8 0x10 = none := by decide

/-- A placed word is what the next step runs. -/
theorem test_fetch_word : (after (step (State.reset.withFetchWord 8 0x04))).map (·.output) = some [0x08] ∧
    (after (step (State.reset.withFetchWord 4 0x0))).map (·.pb.isSome) = some true := by decide +kernel

/-! ### The commands -/

/-- IN4. -/
theorem test_init_keyed : (after (exec (.init 20 [1, 2, 3, 4, 5] [0x61, 0x62] [0x78, 0x79, 0x7A]) (empty []))).map
      (fun t => (t.live.h, t.live.buflen, (t.live.buf : List (Nat × Byte)), t.output)) =
    some (#v[0x6B08E373, 0xBB67AE85, 0x3C6EF372, 0xA54FF53A, 0x510E301E, 0x9B05688C, 0x1FF9A0D3, 0x5BE0CD19], 64,
      [(0, 1), (1, 2), (2, 3), (3, 4), (4, 5)], [0x00]) := by decide
/-- IN12: the first failing check. -/
theorem test_init_priority : (after (exec (.init 0 (zeros 33) [] []) (empty []))).map (fun t => (t.st, t.output)) =
    some (.empty, [0x01]) := by decide
/-- AP4: a full buffer waits. -/
theorem test_append_defers : (after (exec (.append (seq 64)) (ready 0))).map (fun t => (t.live.h, t.live.t0, t.live.buflen, t.output)) =
    some (hIN1, 0, 64, [0x00, 0x40, 0x00, 0x00, 0x00]) := by decide
/-- AP5: the next byte compresses it, with the counter advanced first. -/
theorem test_append_compresses : (after (exec (.append [0x40]) (ready 64))).map
      (fun t => (t.live.h, t.live.t0, t.live.t1, t.live.buflen, t.live.buf.read 0)) =
    some (#v[0x69B86EDC, 0x9C74BB75, 0x25BD102E, 0x83F24029, 0x9A9D32C1, 0xA02250BB, 0x3AA0A774, 0xE4B93E1D], 64, 0, 1, 0x40) := by
  decide +kernel
/-- S1: empty input, no key. -/
theorem test_final_empty : (after (exec .final (ready 0))).map (·.output) = some [0x00,
    0x69, 0x21, 0x7A, 0x30, 0x79, 0x90, 0x80, 0x94, 0xE1, 0x11, 0x21, 0xD0, 0x42, 0x35, 0x4A, 0x7C,
    0x1F, 0x55, 0xB6, 0x48, 0x2C, 0xA1, 0xA5, 0x1E, 0x1B, 0x25, 0x0D, 0xFD, 0x1E, 0xD0, 0xEE, 0xF9] := by decide +kernel
/-- S4: a full buffer is the last block. -/
theorem test_final_full : (after (exec .final (ready 64))).map (fun t => (t.output, decide (t.live = (ready 64).live))) =
    some ([0x00,
    0x56, 0xF3, 0x4E, 0x8B, 0x96, 0x55, 0x7E, 0x90, 0xC1, 0xF2, 0x4B, 0x52, 0xD0, 0xC8, 0x9D, 0x51,
    0x08, 0x6A, 0xCF, 0x1B, 0x00, 0xF6, 0x34, 0xCF, 0x1D, 0xDE, 0x92, 0x33, 0xB8, 0xEA, 0xAA, 0x3E], true) := by
  decide +kernel
/-- DS1, DS6. -/
theorem test_blksz : (after (exec .blksz (ready 3))).map (·.output) = some [0x00, 0x40] ∧
    (after (exec .blksz (empty []))).map (·.output) = some [0x08] := by decide
/-- DS2, DS7. -/
theorem test_outsz : (after (exec .outsz (ready 3 20))).map (·.output) = some [0x00, 0x14] ∧
    (after (exec .outsz (empty []))).map (·.output) = some [0x08] := by decide
/-- DS3, DS8. -/
theorem test_reset : (after (exec .reset (ready 3))).map (fun t => (t.st, t.output)) = some (.faulted, [0x07]) ∧
    (after (exec .reset (empty []))).map (fun t => (t.st, t.output)) = some (.empty, [0x08]) := by decide
/-- DS9 to DS12. -/
theorem test_illegal_opcode : (after (step (empty [0x00]))).map (·.output) = some [0x09] ∧
    (after (step (ready 0 32 [0x07]))).map (·.output) = some [0x09] ∧
    (after (step (ready 0 32 [0x81]))).map (·.output) = some [0x09] ∧
    (after (step (faulted [0x07]))).map (·.output) = some [0x0A] := by decide
/-- P1 steps 1 and 2, from the frames. -/
theorem test_frames : answers [[0x01, 0x20, 0x00, 0x00, 0x00], [0x02, 0x03, 0x00, 0x00, 0x00, 0x61, 0x62, 0x63]] =
    some [0x00, 0x00, 0x03, 0x00, 0x00, 0x00] := by decide
/-- R180: the second frame before the first response. -/
theorem test_second_command_in_flight : step (ready 0 32 [0x04, 0x05]) = .refused .commandInFlight ∧
    step (ready 0 32 [0x07, 0x05]) = .refused .commandInFlight := ⟨rfl, rfl⟩

/-! ### The micro-operations -/

/-- MA3. -/
theorem test_marshal : (after (exec (.marshal 1 5 [0x61, 0x62] [0x78, 0x79, 0x7A]) State.reset)).map (·.pb) =
    some (some #v[0x01, 0x05, 0x01, 0x01, 0, 0, 0, 0, 0, 0, 0, 0, 0, 0, 0, 0, 0x61, 0x62, 0, 0, 0, 0, 0, 0,
      0x78, 0x79, 0x7A, 0, 0, 0, 0, 0]) := by decide
/-- A salt of nine bytes: the other fields are those of the rule. -/
theorem test_marshal_long_salt : (after (exec (.marshal 1 5 (seq 9) [0x78]) State.reset)).map
      (fun t => t.pb.map fun p => (p.toList.take 16, p.toList.drop 24)) =
    some (some ([0x01, 0x05, 0x01, 0x01, 0, 0, 0, 0, 0, 0, 0, 0, 0, 0, 0, 0], [0x78, 0, 0, 0, 0, 0, 0, 0])) := by decide
/-- MA6, from its bytes. -/
theorem test_ivxor : (after (exec .ivxor { State.reset with
      pb := some #v[0x20, 0x00, 0x01, 0x01, 0, 0, 0, 0, 0, 0, 0, 0, 0, 0, 0, 0, 0x31, 0x32, 0x33, 0x34, 0x35, 0x36, 0x37, 0x38,
        0x41, 0x42, 0x43, 0x44, 0x45, 0x46, 0x47, 0x48] })).map (·.live.h) =
    some #v[0x6B08E647, 0xBB67AE85, 0x3C6EF372, 0xA54FF53A, 0x653D604E, 0xA3325EB9, 0x5BC09BEA, 0x13A78B5C] := by decide
/-- KB2. -/
theorem test_keyblk : (after (exec (.keyblk [1, 2, 3, 4, 5]) (ready 0))).map (fun t => ((t.live.buf : List (Nat × Byte)), t.live.buflen, t.live.t0)) =
    some ([(0, 1), (1, 2), (2, 3), (3, 4), (4, 5)], 64, 0) := by decide
/-- One byte lands on `buf[buflen]`. -/
theorem test_absorb1 : (after (exec (.absorb1 0xAB) (ready 3))).map (fun t => ((t.live.buf : List (Nat × Byte)), t.live.buflen)) =
    some ([(1, 1), (2, 2), (3, 0xAB)], 4) := by decide
/-- CT5, CT6. -/
theorem test_ctradd_carry :
    (after (exec (.ctradd 64) { ready 0 with live := { (ready 0).live with t0 := 0xFFFFFFFF } })).map
      (fun t => (t.live.t0, t.live.t1)) = some (0x3F, 1) ∧
    (after (exec (.ctradd 32) { ready 0 with live := { (ready 0).live with t0 := 0xFFFFFFF0, t1 := 5 } })).map
      (fun t => (t.live.t0, t.live.t1)) = some (0x10, 6) := by decide
/-- CT7, CT9. -/
theorem test_ctradd_edges :
    (after (exec (.ctradd 64) { ready 0 with live := { (ready 0).live with t0 := 0xFFFFFFBF, t1 := 7 } })).map
      (fun t => (t.live.t0, t.live.t1)) = some (0xFFFFFFFF, 7) ∧
    (after (exec (.ctradd 64) { ready 0 with live := { (ready 0).live with t0 := 0xFFFFFFC0, t1 := 0xFFFFFFFF } })).map
      (fun t => (t.live.t0, t.live.t1)) = some (0, 0) := by decide
/-- ML2. -/
theorem test_msgload : (after (exec (.msgload (seq 64)) State.reset)).map (·.m) = some (some
    #v[0x03020100, 0x07060504, 0x0B0A0908, 0x0F0E0D0C, 0x13121110, 0x17161514, 0x1B1A1918, 0x1F1E1D1C,
       0x23222120, 0x27262524, 0x2B2A2928, 0x2F2E2D2C, 0x33323130, 0x37363534, 0x3B3A3938, 0x3F3E3D3C]) := by decide
/-- ML4. -/
theorem test_msgload_length : (after (exec (.msgload (seq 63)) (ready 0))).map (fun t => (t.st, t.output)) =
    some (.faulted, [0x05]) := by decide
/-- VI3. -/
theorem test_vinit : (after (exec (.vinit hIN1 3 1 0xFFFFFFFF 0) State.reset)).map (fun t => t.v.map (·.toList.drop 12)) =
    some (some [0x510E527C, 0x9B05688D, 0xE07C2654, 0x5BE0CD19]) := by decide
/-- G10. -/
theorem test_g : (after (exec (.g 0x11111111 0x22222222 0x33333333 0x44444444 0x55555555 0x66666666) State.reset)).map (·.ret) =
    some (some (.quad 0xCCCCCCCB 0x45B64444 0x06FFFFFF 0x07000000)) := by decide
/-- T3, round 0. -/
theorem test_round : (after (exec (.round 0) { State.reset with
      m := some (msgWords (byteVector 64 (seq 64))),
      v := some #v[0x6B08E647, 0xBB67AE85, 0x3C6EF372, 0xA54FF53A, 0x510E527F, 0x9B05688C, 0x1F83D9AB, 0x5BE0CD19,
        0x6A09E667, 0xBB67AE85, 0x3C6EF372, 0xA54FF53A, 0x510E523F, 0x9B05688C, 0xE07C2654, 0x5BE0CD19] })).map (·.v) = some (some
    #v[0x551AE487, 0xE4DA2403, 0xA9BD8475, 0x9CFF5828, 0xB1C137B7, 0x211191B6, 0x1C8076E8, 0xBFD91C64,
       0x0B19E36B, 0x17F28882, 0x09D165FA, 0x8768D435, 0x167C077F, 0xAA7CF6CD, 0xBD0F4BB0, 0x1161DE54]) := by decide
/-- T3, round 1 to round 2: the row of SIGMA is that of the round. -/
theorem test_round_schedule : (after (exec (.round 2) { State.reset with
      m := some (msgWords (byteVector 64 (seq 64))),
      v := some #v[0x3B9D4616, 0x5B27BE34, 0x80A2323C, 0x52D84EC6, 0x4B79FC2B, 0xA72DD3F5, 0x6AC368A8, 0xC226ABF3,
        0x8F2A0FE5, 0x3BE69746, 0xE47B6B4E, 0x7611BA9C, 0x62FBBC52, 0xEFED5A25, 0x29A5AA70, 0xB20084A0] })).map (·.v) = some (some
    #v[0xAF350697, 0x3DEA9EFB, 0x6B203D35, 0x2DF0DF0A, 0x7B7E656B, 0xAADCB9F4, 0xDA9C0AB4, 0x695D5939,
       0x73430219, 0x3C6DFEFB, 0xBD737C02, 0xC25FAD9F, 0x3C65EE38, 0xDA6E9792, 0x75EAAA99, 0xD19FFAA2]) := by decide
/-- T1, the feed-forward. -/
theorem test_feedfwd : (after (exec (.feedfwd hIN1) { State.reset with
      v := some #v[0xD413382A, 0xDAFC3AE3, 0x4BA85EE5, 0x8DCD5A04, 0xF0FDF183, 0xA8835AF0, 0xE94C7C22, 0xC346A16F,
        0x8F61FF04, 0xF51B041F, 0xA7E7BC76, 0x54C89A7C, 0xE945F6E3, 0x2D239350, 0x0BC28092, 0x6148BC68] })).map (·.ret) =
    some (some (.words #v[0x307A2169, 0x94809079, 0xD02111E1, 0x7C4A3542, 0x48B6551F, 0x1EA5A12C, 0xFD0D251B, 0xF9EED01E])) := by
  decide
/-- R33: read by FEEDFWD, then dead. -/
theorem test_feedfwd_ends_v : (after (exec (.feedfwd hIN1) { State.reset with v := some (Vector.replicate 16 1) })).map (·.v) =
    some none := by decide
/-- CO1. -/
theorem test_compress : (after (exec (.compress hIN1 (seq 64) 0x40 0 0 0) State.reset)).map (·.ret) = some (some (.words
    #v[0x69B86EDC, 0x9C74BB75, 0x25BD102E, 0x83F24029, 0x9A9D32C1, 0xA02250BB, 0x3AA0A774, 0xE4B93E1D])) := by decide +kernel
/-- PA2: bytes past the fill are not read. -/
theorem test_pad : (after (exec .pad { ready 0 with live := { (ready 0).live with
      buf := [(0, 0x61), (1, 0x62), (2, 0x63), (3, 0xFF), (63, 0xFF)], buflen := 3 } })).map (·.ret) =
    some (some (.block (byteVector 64 [0x61, 0x62, 0x63]))) := by decide
/-- EX4. -/
theorem test_extract : (after (exec (.extract
      #v[0x307A2169, 0x94809079, 0xD02111E1, 0x7C4A3542, 0x48B6551F, 0x1EA5A12C, 0xFD0D251B, 0xF9EED01E] 5) State.reset)).map (·.ret) =
    some (some (.digest [0x69, 0x21, 0x7A, 0x30, 0x79])) := by decide
/-- AR4. -/
theorem test_add32 : (after (exec (.add32 0xFFFFFFFF 0xFFFFFFFF) State.reset)).map (·.ret) = some (some (.word 0xFFFFFFFE)) := by decide
/-- AR6. -/
theorem test_xor32 : (after (exec (.xor32 0x6A09E667 0x01010020) State.reset)).map (·.ret) = some (some (.word 0x6B08E647)) := by decide
/-- AR14 to AR17. -/
theorem test_rotr32 : ([RotAmount.rot1, .rot2, .rot3, .rot4].map (rotr32 0x12345678)) =
    [0x56781234, 0x67812345, 0x78123456, 0xF02468AC] := by decide

/-! ### Witnesses: the hypotheses of each statement that has some can be met -/

theorem witness_FrameDecodesToItsCommand :
    (Instr.init 255 (zeros 255) (zeros 255) (zeros 255)).WellFormed ∧ (Instr.init 0 [] [] []).WellFormed ∧
    (Instr.append []).WellFormed ∧ (Instr.append [0x61]).WellFormed ∧ Instr.final.WellFormed ∧
    (Instr.append [0x61]).isCommand = true ∧ (Instr.init 0 [] [] []).isCommand = true := by decide +kernel
theorem witness_DecodedFrameIsCanonical : decodeFrame [0x02, 0x01, 0x00, 0x00, 0x00, 0x61, 0x03] = .command (.append [0x61]) [0x03] := by
  decide
theorem witness_StepRunsWhatIsDecoded :
    ((ready 0 32 [0x03]).seq = none ∧ decodeFrame (ready 0 32 [0x03]).input = .command .final []) ∧
    ((sending [[0x03], [0x04]] (ready 0)).seq = none ∧ (sending [[0x03], [0x04]] (ready 0)).input = [] ∧
      (sending [[0x03], [0x04]] (ready 0)).plan = [0x03] :: [[0x04]] ∧ decodeFrame [0x03] = .command .final []) ∧
    (at_ .pad).seq = some .pad ∧ ((ready 0).seq = none ∧ (ready 0).input = [] ∧ (ready 0).plan = []) ∧
    decodeFrame (ready 0 32 [0x02, 0x01]).port = .incomplete := by decide
theorem witness_IllegalOpcodeByteAnswered :
    ((empty [0x00]).seq = none ∧ (empty [0x00]).port = [0x00]) ∧
    ((ready 0 32 [0x07]).port = [0x07] ∧ 6 < (0x07 : Byte).toNat) ∧
    ((sending [[0xFF], [0x03]] (faulted [])).port = [0xFF] ∧ 6 < (0xFF : Byte).toNat) := by decide
theorem witness_EveryCommandAnswersOnce : (ready 0 32 [0x04]).seq = none ∧ ∃ t, step (ready 0 32 [0x04]) = .next t := ⟨rfl, _, rfl⟩
theorem witness_FaultedEngineAnswersOnlyFaulted : Instr.final.isCommand = true ∧ (Instr.init 32 [] [] []).isCommand = true ∧
    (faulted []).st = .faulted := by decide
theorem witness_EmptyEngineAnswersNotReady : Instr.reset.isCommand = true ∧
    (∀ outlen key salt pers, Instr.reset ≠ .init outlen key salt pers) ∧ (empty []).st = .empty := by simp [Instr.isCommand, empty, State.reset]
theorem witness_FaultedIsStickyAlongRuns : (sending [[0x03], [0x07]] (faulted [])).seq = none ∧
    (sending [[0x03], [0x07]] (faulted [])).st = .faulted ∧
    ∃ t, Sys2Proof.core.run 2 (sending [[0x03], [0x07]] (faulted [])) = .next t := ⟨rfl, rfl, _, rfl⟩
/-- EMPTY with an accepted INIT, READY with RESET, FAULTED with BLKSZ. -/
theorem witness_StatusTransitionsAsListed :
    ((empty [0x01, 0x20, 0, 0, 0]).st = .empty ∧ ∃ t, step (empty [0x01, 0x20, 0, 0, 0]) = .next t) ∧
    ((ready 0 32 [0x06]).st = .ready ∧ ∃ t, step (ready 0 32 [0x06]) = .next t) ∧
    ((faulted [0x04]).st = .faulted ∧ ∃ t, step (faulted [0x04]) = .next t) := ⟨⟨rfl, _, rfl⟩, ⟨rfl, _, rfl⟩, rfl, _, rfl⟩
/-- APPEND writes a live register; INIT writes `outlen`. -/
theorem witness_OnlyInitAndAppendWriteLiveRegisters :
    (∃ t, after (step (ready 0 32 [0x02, 1, 0, 0, 0, 0x61])) = some t ∧ t.live ≠ (ready 0).live) ∧
    (∃ t, after (step (ready 0 32 [0x01, 0x10, 0, 0, 0])) = some t ∧ t.live.outlen ≠ (ready 0).live.outlen) := by
  refine ⟨⟨_, rfl, ?_⟩, ⟨_, rfl, ?_⟩⟩ <;> decide
/-- The invariant holds of a READY machine with a full buffer. -/
theorem ready_full_inv : (ready 64 32 [0x03]).Inv :=
  ⟨rfl, rfl, rfl, rfl, rfl, by decide, fun _ => ⟨by decide, by decide, by decide, rfl, rfl, by decide, by decide⟩⟩
theorem witness_StepKeepsInvariant : (ready 64 32 [0x03]).Inv ∧ ∃ t, step (ready 64 32 [0x03]) = .next t :=
  ⟨ready_full_inv, _, rfl⟩
theorem witness_InvariantStatesNeverFault : (ready 64 32 [0x03]).Inv := ready_full_inv
theorem witness_InitRejectsInListOrder : (empty []).st ≠ .faulted ∧ ¬ ValidOperands 0 [] [] [] ∧ ¬ ValidOperands 33 [] [] [] ∧
    ¬ ValidOperands (-1) [] [] [] ∧ ¬ ValidOperands 32 (zeros 33) [] [] ∧ ¬ ValidOperands 32 [] (zeros 9) [] ∧
    ¬ ValidOperands 32 [] [] (zeros 9) := by decide
/-- IN15's limits and the smallest operands, from EMPTY and from READY. -/
theorem witness_InitBuildsEngine : (empty []).st ≠ .faulted ∧ (empty []).live.buf.wf = true ∧ (ready 3).st ≠ .faulted ∧
    (ready 3).live.buf.wf = true ∧ ValidOperands 1 (seq 32) (seq 8) (seq 8) ∧ ValidOperands 32 [] [] [] ∧
    ValidOperands 32 [0] [] [] := by decide
theorem witness_InitForgetsTheEarlierEngine : (empty []).st ≠ .faulted ∧ (ready 64).st ≠ .faulted ∧
    (empty []).live.buf.wf = true ∧ (ready 64).live.buf.wf = true ∧ ValidOperands 1 (seq 32) (seq 8) (seq 8) := by decide
theorem witness_MarshalLaysOutParameterBlock : 1 ≤ (1 : Byte).toNat ∧ (32 : Byte).toNat ≤ 32 ∧ 1 ≤ (32 : Byte).toNat ∧
    (0 : Byte).toNat ≤ 32 ∧ (seq 8).length ≤ 8 ∧ (seq 0).length ≤ 8 := by decide
theorem witness_IvxorWritesOnlyChainingValue :
    ({ State.reset with pb := some (Vector.replicate 32 1) }).pb = some (Vector.replicate 32 1) := rfl
theorem witness_KeyblkLeavesKeyBlockPending : 1 ≤ (seq 1).length ∧ (seq 32).length ≤ 32 ∧ 1 ≤ (seq 32).length ∧
    (ready 0).live.buflen = 0 ∧ (ready 0).live.buf.wf = true := by decide
theorem witness_KeyblkIsAppendOfThePaddedKey : 1 ≤ (seq 1).length ∧ 1 ≤ (seq 32).length ∧ (seq 32).length ≤ 32 ∧
    (ready 64).st = .ready ∧ (ready 64).live.fillOk ∧ (ready 0).live.fillOk := by decide
theorem witness_InitIsMarshalThenIvxor : (empty []).st ≠ .faulted ∧ ValidOperands 1 (seq 32) (seq 8) (seq 8) ∧
    ValidOperands 32 [] [] [] := by decide
theorem witness_MicroOperandsOutsideTheirRules : (seq 0 : List Byte) = [] ∧ 32 < (seq 33).length ∧ (ready 0).live.fillOk ∧
    (ready 64).live.fillOk ∧ (31 : Fin 32).val < (63 : BitVec 6).toNat := by decide
theorem witness_AbsorbStoresOneByte : (ready 0).live.buflen.toNat < 64 ∧ (ready 0).live.buf.wf = true ∧
    (ready 63).live.buflen.toNat < 64 ∧ (ready 63).live.buf.wf = true ∧ (ready 64).live.buflen = 64 ∧
    (ready 64).live.buf.wf = true := by decide
/-- 64 bytes in all: no compression; 65: one. -/
theorem witness_AppendCountsAndFills : (ready 3).st = .ready ∧ (ready 3).live.fillOk ∧
    (ready 3).live.buflen.toNat + (seq 61).length ≤ 64 ∧ 64 < (ready 3).live.buflen.toNat + (seq 62).length ∧
    1 + 1 = ((ready 3).live.buflen.toNat + (seq 62).length + 63) / 64 := by decide
/-- The first cell no byte falls on is cell 4. -/
theorem witness_AppendKeepsTheLastBytesPending : (ready 3).st = .ready ∧ (ready 3).live.fillOk ∧ (ready 3).live.buf.wf = true ∧
    (∃ t, exec (.append [0x61]) (ready 3) = .next t) ∧ (∀ j, j < 1 → ((ready 3).live.buflen.toNat + j) % 64 ≠ 4) :=
  ⟨rfl, by decide, by decide, ⟨_, rfl⟩, by decide⟩
theorem witness_EmptyAppendChangesNoRegister : (ready 64).st = .ready := rfl
theorem witness_AppendIsAbsorbOfEachByte : (ready 64).st = .ready ∧ (ready 64).live.fillOk := by decide
theorem witness_StreamingEquivalence : (ready 64).st = .ready ∧ (ready 64).live.fillOk := by decide
theorem witness_AbsorbedLengthFixesFillAndCounter : (ready 0).st = .ready ∧ (ready 0).live.buflen = 0 ∧ (ready 0).live.t0 = 0 ∧
    (ready 0).live.t1 = 0 ∧ ([[], []] : List (List Byte)).flatten = [] ∧ ([seq 1, []] : List (List Byte)).flatten ≠ [] := by decide
theorem witness_BlockwiseAppendEqualsBytewise : (ready 64).live.fillOk ∧ (ready 0).live.fillOk := by decide
theorem witness_MessageWordsAreLittleEndian : (seq 64).length = 64 ∧ 3 < 4 ∧ 7 < 8 := by decide
theorem witness_WrongBlockLengthIsFatal : (seq 0).length ≠ 64 ∧ (seq 63).length ≠ 64 ∧ (seq 65).length ≠ 64 := by decide
/-- The last column application and the first diagonal one. -/
theorem witness_RoundIsColumnsThenDiagonals :
    ({ State.reset with v := some (Vector.replicate 16 1), m := some (Vector.replicate 16 2) }).v = some (Vector.replicate 16 1) ∧
    ({ State.reset with v := some (Vector.replicate 16 1), m := some (Vector.replicate 16 2) }).m = some (Vector.replicate 16 2) ∧
    (3 : Fin 8).val < 4 ∧ 4 ≤ (4 : Fin 8).val := by decide
theorem witness_LanesRunInAnyOrder : ([3, 1, 0, 2] : List (Fin 8)).Perm [0, 1, 2, 3] ∧ ([7, 5, 4, 6] : List (Fin 8)).Perm [4, 5, 6, 7] := by
  decide
theorem witness_FeedForwardXorsBothHalves : ({ State.reset with v := some (Vector.replicate 16 1) }).v = some (Vector.replicate 16 1) := rfl
theorem witness_DeadTransientsReadFree : State.reset.pb = none ∧ State.reset.v = none ∧ State.reset.m = none := by decide
theorem witness_CompressIsItsMicroOperations : (seq 64).length = 64 := by decide
theorem witness_PadFillsWithZeros : (ready 0).live.fillOk ∧ (ready 64).live.fillOk := by decide
theorem witness_ExtractTakesLittleEndianBytes : 1 ≤ (1 : BitVec 6).toNat ∧ (1 : BitVec 6).toNat ≤ 32 ∧
    1 ≤ (32 : BitVec 6).toNat ∧ (32 : BitVec 6).toNat ≤ 32 ∧ (0 : Fin 32).val < (1 : BitVec 6).toNat ∧
    (31 : Fin 32).val < (32 : BitVec 6).toNat := by decide
theorem witness_FinalAnswersDigestOfLastBlock : (ready 0).st = .ready ∧ (ready 0).live.fillOk ∧ (ready 64).live.fillOk ∧
    (ready 64).st = .ready ∧ (ready 0).live.f0 = 0 := by decide
/-- FF1's state. -/
theorem witness_FinalGuardsTheLiveFlag :
    ({ ready 0 with live := { (ready 0).live with f0 := 0xFFFFFFFF } }).st = .ready ∧ (0xFFFFFFFF : Word) ≠ 0 := by decide
theorem witness_FinalIsIdempotent : (ready 64).st = .ready ∧ (ready 64).live.fillOk ∧ (ready 64).live.f0 = 0 := by decide
theorem witness_FinalDoesNotEndTheMessage : (ready 64).st = .ready ∧ (ready 64).live.fillOk ∧ (ready 64).live.f0 = 0 := by decide
theorem witness_HashDoesNotDependOnTheSplit : (empty []).st ≠ .faulted ∧ (ready 64).st ≠ .faulted ∧ (empty []).live.buf.wf = true ∧
    (ready 64).live.buf.wf = true ∧ ValidOperands 32 (seq 32) [] [] ∧
    ([seq 2, [], [2]] : List (List Byte)).flatten = ([seq 3] : List (List Byte)).flatten := by decide
/-- Two machines whose buffers differ past the fill. -/
theorem witness_NoCommandReadsStaleBytes :
    (∀ i ∈ [Instr.blksz], i.isCommand = true) ∧
    (ready 3).st = ({ ready 3 with live := { (ready 3).live with buf := [(1, 1), (2, 2), (9, 7)] } }).st ∧
    (ready 3).live.Agree { (ready 3).live with buf := [(1, 1), (2, 2), (9, 7)] } ∧
    (ready 3).live.buf.wf = true ∧ Memory.wf [(1, 1), (2, 2), (9, 7)] = true ∧ (ready 3).live.fillOk ∧
    ∃ t, runAll [Instr.blksz] (ready 3) = .next t :=
  ⟨by decide, rfl, ⟨rfl, rfl, rfl, rfl, rfl, rfl, rfl, by decide⟩, by decide, by decide, by decide, _, rfl⟩
theorem witness_SizeQueriesAnswer : (ready 3 20).st = .ready := rfl
theorem witness_ResetCommandSignalsUnsupported : (ready 3).st = .ready ∧ (empty []).st = .empty := by decide
theorem witness_NoCellPastTheBuffer : 64 < (ready 65).live.buflen.toNat ∧ (ready 65).st = .ready ∧ (ready 65).live.f0 = 0 := by
  decide
/-- A command and an illegal opcode byte, each with a byte behind it. -/
theorem witness_SecondCommandInFlightHasNoStep :
    ((ready 0 32 [0x04, 0x05]).seq = none ∧ Instr.blksz.WellFormed ∧ Instr.blksz.isCommand = true ∧
      (ready 0 32 [0x04, 0x05]).port = frameOf .blksz ++ 0x05 :: []) ∧
    ((ready 0 32 [0x07, 0x05]).seq = none ∧ 6 < (0x07 : Byte).toNat ∧ (ready 0 32 [0x07, 0x05]).port = 0x07 :: 0x05 :: []) := by
  decide

end Sys2Proof.Tests
end

section
/-! PROOFS for the family 00_scope.md: what a step runs (R7), and that it answers once (R15). -/

namespace Sys2Proof.Machine

/-! ### One response for each command -/

/-- Every command may answer an error (60_exceptions.md R150). -/
theorem Response.err_answers {i : Instr} (code : ErrorCode) (s : State) (hc : i.isCommand = true) :
    (Response.err code).Answers i s := by
  cases i <;> simp [Instr.isCommand] at hc
  case reset => exact ⟨code, rfl⟩
  all_goals exact .inr ⟨code, rfl⟩

/-- Which responses a command may send is a matter of the live registers alone: of `outlen`, for FINAL and OUTSZ. -/
theorem Response.answers_congr {r : Response} {i : Instr} {s s' : State} (h : s.live = s'.live) :
    r.Answers i s ↔ r.Answers i s' := by
  cases i <;> simp only [Response.Answers, h]

/-- A command that goes on sends one response of its row, and neither takes nor adds a byte at the command port. -/
theorem CommandOutcome.answersOnce {i : Instr} {s t : State} (hc : i.isCommand = true)
    (h : CommandOutcome i s (.next t)) :
    (∃ r : Response, r.Answers i s ∧ t.output = s.output ++ r.frame) ∧ t.input = s.input ∧ t.plan = s.plan := by
  cases h with
  | error code => exact ⟨⟨.err code, Response.err_answers code s hc, rfl⟩, rfl, rfl⟩
  | fatal code => exact ⟨⟨.err code, Response.err_answers code s hc, rfl⟩, rfl, rfl⟩
  | init outlen key salt pers l hi =>
    subst hi
    exact ⟨⟨.ok, .inl rfl, rfl⟩, rfl, rfl⟩
  | append data l hi =>
    subst hi
    exact ⟨⟨.count data.length, .inl rfl, rfl⟩, rfl, rfl⟩
  | final d hi hs h0 hd =>
    subst hi
    exact ⟨⟨.bytes d, .inl ⟨d, rfl, Live.digest_length hd⟩, rfl⟩, rfl, rfl⟩
  | size n hi =>
    refine ⟨⟨.size n, ?_, rfl⟩, rfl, rfl⟩
    obtain ⟨rfl, rfl⟩ | ⟨rfl, rfl⟩ := hi
    · exact .inl rfl
    · exact .inl rfl

/-- Settles O8: the two ways a step can go on, each with its one response. -/
theorem everyCommandAnswersOnce : Obligations.EveryCommandAnswersOnce := by
  intro s t hseq ht
  obtain ⟨i, hd, hc, ho⟩ | ⟨b, code, hd, -, rfl⟩ := step_idle_next hseq ht
  · obtain ⟨⟨r, hr, hout⟩, hin, hplan⟩ := ho.answersOnce hc
    rw [State.taken_output] at hout
    exact ⟨.inl ⟨i, r, hd, (Response.answers_congr s.taken_live).1 hr, hout⟩, hin, hplan⟩
  · exact ⟨.inr ⟨b, code, hd, by simp⟩, rfl, rfl⟩

/-! ### What a step runs -/

/-- A frame alone at the port is run with all its bytes taken. -/
theorem step_of_command {s : State} {i : Instr} (h : s.seq = none) (hd : decodeFrame s.port = .command i []) :
    step s = exec i s.taken := by
  rw [step_idle h, hd]

/-- A micro-operation at the sequencer is run, and the sequencer is then idle. -/
theorem step_of_seq {s : State} {i : Instr} (h : s.seq = some i) : step s = exec i { s with seq := none } := by
  simp only [step, fetch, h]

/-- An empty byte stream holds no frame. -/
theorem ne_nil_of_decodeFrame_command {bs rest : List Byte} {i : Instr} (h : decodeFrame bs = .command i rest) : bs ≠ [] := by
  rintro rfl
  cases h

/-- Settles O6: what the port holds and what taking it leaves, for bytes at hand, for the host's next frame and for
nothing to come. -/
theorem stepRunsWhatIsDecoded : Obligations.StepRunsWhatIsDecoded := by
  refine ⟨fun s i hseq hd => ?_, fun s i frame later hseq hin hplan hd => ?_, fun s i hseq => step_of_seq hseq,
    fun s hseq hin hplan => ?_, fun s hseq hd => ?_⟩
  · have hin : s.input ≠ [] := ne_nil_of_decodeFrame_command hd
    rw [step_of_command hseq (by rwa [State.port_of_input hin]), State.taken_of_input hin]
  · rw [step_of_command hseq (by rwa [State.port_of_plan hin hplan]), State.taken_of_plan hin hplan]
  · rw [step_idle hseq, State.port_of_nothing hin hplan]
    rfl
  · rw [step_idle hseq, hd]

end Sys2Proof.Machine
end

section
/-! PROOFS for the family 10_state.md: the invariant (R40, R41), the bytes of `buf` no rule reads (R28, R38), the
transitions of `st` (R31), who writes the live registers (R27, R30), the tables (R21, R22) and the transients without a
value (R33, R34). -/

namespace Sys2Proof.Machine

/-! ### The invariant -/

/-- Absorbing keeps what R40 says of an engine: the counter moves by whole blocks, and a buffer that is empty afterwards
was empty before and got no byte. -/
theorem Live.EngineOk.absorb {l l' : Live} {xs : List Byte} (h : l.EngineOk) (e : l.absorb xs = .ok l') :
    l'.EngineOk := by
  obtain ⟨hf0, hf1, hout⟩ := Live.absorb_keeps xs e
  obtain ⟨c, hroom, hover, hlen, hcount⟩ := Live.absorb_count xs e h.fill
  have hblocks := h.counter_blocks
  refine ⟨Live.absorb_fillOk xs e h.fill, hout ▸ h.outlen_pos, hout ▸ h.outlen_max, hf0.trans h.f0_zero,
    hf1.trans h.f1_zero, by omega, fun hempty => ?_⟩
  have hempty' : l'.buflen.toNat = 0 := by simp [hempty]
  have hbefore : l.buflen.toNat = 0 := by omega
  have hfresh : l.counter = 0 := h.empty_fresh (BitVec.eq_of_toNat_eq hbefore)
  omega

/-- An accepted INIT constructs an engine as R40 says. -/
theorem Live.construct_engineOk (l : Live) {outlen : Int} {key salt pers : List Byte}
    (h : ValidOperands outlen key salt pers) : (l.construct outlen key salt pers).EngineOk := by
  obtain ⟨hpos, hmax, -⟩ := h
  have hout : (BitVec.ofInt 6 outlen).toNat = outlen.toNat := by
    rw [BitVec.toNat_ofInt]
    omega
  constructor <;> simp only [Live.construct, Live.fillOk, Live.counter, counterValue, hout]
  case outlen_pos => omega
  case outlen_max => omega
  all_goals simp

/-- Sending a response keeps the invariant. -/
theorem State.Inv.respond {s : State} (h : s.Inv) (r : Response) : (s.respond r).Inv :=
  ⟨h.idle, h.no_pb, h.no_v, h.no_m, h.no_ret, h.buf_wf, h.engine⟩

/-- Taking the bytes of the port keeps the invariant. -/
theorem State.Inv.taken {s : State} (h : s.Inv) : s.taken.Inv := by
  obtain ⟨hseq, hpb, hv, hm, hret, hbuf, hengine⟩ := h
  constructor <;> simpa

/-- The end of the transients keeps the invariant. -/
theorem State.Inv.endTransients {s : State} (h : s.Inv) : s.endTransients.Inv :=
  ⟨h.idle, rfl, rfl, rfl, rfl, h.buf_wf, h.engine⟩

/-- Live registers and a status that fit each other keep the invariant. -/
theorem State.Inv.withLive {s : State} (h : s.Inv) (st : Status) {l : Live} (hbuf : l.buf.wf = true)
    (hengine : st = .ready → l.EngineOk) : State.Inv { s with st := st, live := l } :=
  ⟨h.idle, h.no_pb, h.no_v, h.no_m, h.no_ret, hbuf, hengine⟩

/-- A fatal error keeps the invariant: it asks nothing of a FAULTED engine. -/
theorem State.Inv.raiseFatal {s : State} {code : ErrorCode} (h : s.Inv) (hc : code.fatal = true) :
    (raiseError code s).Inv := by
  rw [raiseError_fatal s hc]
  exact (h.withLive .faulted h.buf_wf nofun).respond _

/-- Every command that goes on keeps the invariant. -/
theorem CommandOutcome.keepsInv {i : Instr} {s t : State} (ho : CommandOutcome i s (.next t)) (h : s.Inv) : t.Inv := by
  cases ho with
  | error code hc => exact h.respond _
  | fatal code hs hi hc => exact h.raiseFatal hc
  | init outlen key salt pers l hi hs hv hl =>
    have hengine : l.EngineOk := (s.live.construct_engineOk hv).absorb hl
    have hconstruct : (s.live.construct outlen key salt pers).buf.wf = true := h.buf_wf
    exact (h.withLive .ready (Live.absorb_wf _ hconstruct hl) fun _ => hengine).endTransients.respond _
  | append data l hi hs hl =>
    have hengine : l.EngineOk := (h.engine hs).absorb hl
    exact (h.withLive s.st (Live.absorb_wf _ h.buf_wf hl) fun _ => hengine).endTransients.respond _
  | final d => exact h.endTransients.respond _
  | size n => exact h.respond _

/-- Settles O15: a command keeps the invariant, and so does the answer to an illegal opcode byte. -/
theorem stepKeepsInvariant : Obligations.StepKeepsInvariant := by
  intro s t h ht
  obtain ⟨i, -, -, ho⟩ | ⟨b, code, -, -, rfl⟩ := step_idle_next h.idle ht
  · exact ho.keepsInv h.taken
  · exact h.taken.respond _

/-! ### The bytes of `buf` that are not pending -/

/-- Two engines alike to every rule: they agree on the registers and the pending bytes (R28), in canonical buffers. -/
structure Live.Alike (l l' : Live) : Prop where
  agree : l.Agree l'
  wf : l.buf.wf = true
  wf' : l'.buf.wf = true
  fill : l.fillOk

/-- Engines that are alike absorb alike. -/
theorem Live.Alike.absorb {l l' l1 : Live} {xs : List Byte} (h : l.Alike l') (e : l.absorb xs = .ok l1) :
    ∃ l1', l'.absorb xs = .ok l1' ∧ l1.Alike l1' := by
  obtain ⟨l1', e', ha⟩ := Live.absorb_agree xs h.agree h.wf h.wf' h.fill e
  exact ⟨l1', e', ha, Live.absorb_wf xs h.wf e, Live.absorb_wf xs h.wf' e', Live.absorb_fillOk xs e h.fill⟩

/-- New engines of the same operands are alike, whatever the old ones held: nothing is pending. -/
theorem Live.construct_alike {l l' : Live} (hw : l.buf.wf = true) (hw' : l'.buf.wf = true) (outlen : Int)
    (key salt pers : List Byte) : (l.construct outlen key salt pers).Alike (l'.construct outlen key salt pers) :=
  ⟨⟨rfl, rfl, rfl, rfl, rfl, rfl, rfl, fun a ha => absurd ha (Nat.not_lt_zero a)⟩, hw, hw', Nat.zero_le 64⟩

/-- Two machines alike to every command: the same status, and engines that are alike. -/
structure State.Alike (s s' : State) : Prop where
  st : s.st = s'.st
  live : s.live.Alike s'.live

/-- Two outcomes, reached from `s` and `s'`, that no response tells apart: where the first goes on, so does the second,
both send the same bytes, and the machines are alike afterwards. -/
def AlikeOutcomes (s s' : State) (o o' : Host.Outcome State Fault Refusal) : Prop :=
  ∀ t, o = .next t → ∃ (t' : State) (answers : List Byte), o' = .next t' ∧ t.output = s.output ++ answers ∧
    t'.output = s'.output ++ answers ∧ t.Alike t'

/-- A fault of the first machine asks nothing of the second. -/
theorem AlikeOutcomes.fault {s s' : State} {o' : Host.Outcome State Fault Refusal} (f : Fault) :
    AlikeOutcomes s s' (.fault f) o' :=
  fun _ ht => nomatch ht

/-- The same response, sent once the machines have become alike. -/
theorem State.Alike.answer {s s' u u' : State} (h : u.Alike u') (r : Response) (hout : u.output = s.output)
    (hout' : u'.output = s'.output) : AlikeOutcomes s s' (.next (u.respond r)) (.next (u'.respond r)) := by
  rintro t ⟨⟩
  exact ⟨_, r.frame, rfl, congrArg (· ++ r.frame) hout, congrArg (· ++ r.frame) hout', h.st, h.live⟩

section alike
variable {s s' : State} (h : s.Alike s')
include h

/-- The same error from both machines. -/
theorem State.Alike.raiseError (code : ErrorCode) :
    AlikeOutcomes s s' (.next (raiseError code s)) (.next (raiseError code s')) := by
  rw [Machine.raiseError, Machine.raiseError, h.st]
  refine State.Alike.answer ?_ _ rfl rfl
  exact ⟨rfl, h.live⟩

/-- Dispatch looks at the status alone. -/
theorem State.Alike.dispatch (needs : Bool) (run : State → Host.Outcome State Fault Refusal)
    (hrun : AlikeOutcomes s s' (run s) (run s')) :
    AlikeOutcomes s s' (dispatch needs s run) (dispatch needs s' run) := by
  rw [Machine.dispatch, Machine.dispatch, ← h.st]
  cases s.st with
  | faulted => exact h.raiseError _
  | ready => exact hrun
  | empty =>
    cases needs with
    | true => exact h.raiseError _
    | false => exact hrun

/-- INIT checks its operands alone, and its new engine depends on them alone. -/
theorem State.Alike.runInit (outlen : Int) (key salt pers : List Byte) :
    AlikeOutcomes s s' (runInit outlen key salt pers s) (runInit outlen key salt pers s') := by
  rw [Machine.runInit, Machine.runInit]
  cases constructionError outlen key salt pers with
  | some code => exact h.raiseError code
  | none =>
    cases e : (s.live.construct outlen key salt pers).absorb (keyInput key) with
    | error f => exact .fault f
    | ok l =>
      obtain ⟨l', e', hl⟩ := (Live.construct_alike h.live.wf h.live.wf' outlen key salt pers).absorb e
      rw [e']
      refine State.Alike.answer ?_ _ rfl rfl
      exact ⟨rfl, hl⟩

/-- APPEND reads the registers and the pending bytes. -/
theorem State.Alike.runAppend (data : List Byte) : AlikeOutcomes s s' (runAppend data s) (runAppend data s') := by
  rw [Machine.runAppend, Machine.runAppend]
  cases e : s.live.absorb data with
  | error f => exact .fault f
  | ok l =>
    obtain ⟨l', e', hl⟩ := h.live.absorb e
    rw [e']
    refine State.Alike.answer ?_ _ rfl rfl
    exact ⟨h.st, hl⟩

/-- FINAL reads the registers and the pending bytes, and writes none of them. -/
theorem State.Alike.runFinal : AlikeOutcomes s s' (runFinal s) (runFinal s') := by
  rw [Machine.runFinal, Machine.runFinal, ← h.live.agree.f0, ← Live.digest_agree h.live.agree h.live.fill]
  split
  · exact h.raiseError _
  · cases s.live.digest with
    | error f => exact .fault f
    | ok d =>
      refine State.Alike.answer ?_ _ rfl rfl
      exact ⟨h.st, h.live⟩

/-- No command tells the two machines apart. -/
theorem State.Alike.exec {i : Instr} (hc : i.isCommand = true) : AlikeOutcomes s s' (exec i s) (exec i s') := by
  cases i <;> simp only [Instr.isCommand, Bool.false_eq_true] at hc
  case init outlen key salt pers => exact h.dispatch false _ (h.runInit outlen key salt pers)
  case append data => exact h.dispatch true _ (h.runAppend data)
  case final => exact h.dispatch true _ h.runFinal
  case blksz => exact h.dispatch true (fun s => .next (s.respond (.size 64))) (h.answer _ rfl rfl)
  case outsz =>
    refine h.dispatch true (fun s => .next (s.respond (.size s.live.outlen.toNat))) ?_
    rw [h.live.agree.outlen]
    exact h.answer _ rfl rfl
  case reset => exact h.dispatch true (fun s => .next (Machine.raiseError .unsupported s)) (h.raiseError _)

end alike

/-- No sequence of commands tells two machines apart that are alike. -/
theorem State.Alike.runAll {is : List Instr} {s s' : State} (h : s.Alike s') (hc : ∀ i ∈ is, i.isCommand = true) :
    AlikeOutcomes s s' (runAll is s) (runAll is s') := by
  induction is generalizing s s' with
  | nil =>
    rintro t ⟨⟩
    exact ⟨s', [], rfl, by simp, by simp, h⟩
  | cons i is ih =>
    intro t ht
    rw [Machine.runAll] at ht ⊢
    cases e : Machine.exec i s with
    | fault f => simp [e] at ht
    | refused r => simp [e] at ht
    | next u =>
      rw [e] at ht
      obtain ⟨u', first, e', hu, hu', ha⟩ := h.exec (hc i (by simp)) u e
      obtain ⟨t', later, er, ht, ht', hb⟩ := ih ha (fun j hj => hc j (by simp [hj])) t ht
      exact ⟨t', first ++ later, by rw [e']; exact er, by rw [ht, hu, List.append_assoc],
        by rw [ht', hu', List.append_assoc], hb⟩

/-- Settles O55: two machines alike stay alike along the sequence and send the same answers. -/
theorem noCommandReadsStaleBytes : Obligations.NoCommandReadsStaleBytes := by
  intro is s s' t hc hst hagree hwf hwf' hfill ht
  obtain ⟨t', answers, ht', hout, hout', h⟩ := State.Alike.runAll ⟨hst, hagree, hwf, hwf', hfill⟩ hc t ht
  exact ⟨t', answers, ht', hout, hout', h.st, h.live.agree⟩

/-! ### The status -/

/-- How a command changes the status: not at all, an accepted INIT to READY, RESET or FINAL on a set live flag from READY
to FAULTED. -/
theorem CommandOutcome.status {i : Instr} {s t : State} (ho : CommandOutcome i s (.next t)) :
    t.st = s.st ∨
    (s.st ≠ .faulted ∧ t.st = .ready ∧
      ∃ outlen key salt pers, i = .init outlen key salt pers ∧ ValidOperands outlen key salt pers) ∨
    (s.st = .ready ∧ t.st = .faulted ∧ (i = .reset ∨ (i = .final ∧ s.live.f0 ≠ 0))) := by
  cases ho with
  | error code hc => exact .inl rfl
  | fatal code hs hi hc => exact .inr (.inr ⟨hs, by simp [hc], hi⟩)
  | init outlen key salt pers l hi hs hv hl => exact .inr (.inl ⟨hs, rfl, outlen, key, salt, pers, hi, hv⟩)
  | append data l => exact .inl rfl
  | final d => exact .inl rfl
  | size n => exact .inl rfl

/-- Settles O12: the status transitions of the command that is decoded, read from each status. -/
theorem statusTransitionsAsListed : Obligations.StatusTransitionsAsListed := by
  intro s t hseq ht
  obtain ⟨i, hd, -, ho⟩ | ⟨b, code, -, -, rfl⟩ := step_idle_next hseq ht
  · have hcases := ho.status
    rw [State.taken_st, State.taken_live] at hcases
    obtain hkeep | ⟨hs, hready, outlen, key, salt, pers, rfl, hv⟩ | ⟨hs, hfaulted, hi⟩ := hcases
    · exact ⟨fun h => .inl (hkeep.trans h), fun h => .inl (hkeep.trans h), hkeep.trans⟩
    · exact ⟨fun _ => .inr ⟨hready, outlen, key, salt, pers, hd, hv⟩, fun _ => .inl hready, fun h => absurd h hs⟩
    · refine ⟨fun h => ?_, fun _ => .inr ⟨hfaulted, ?_⟩, fun _ => hfaulted⟩
      · rw [hs] at h
        cases h
      · obtain rfl | ⟨rfl, hflag⟩ := hi
        · exact .inl hd
        · exact .inr ⟨hd, hflag⟩
  · have hkeep : (s.taken.respond (.err code)).st = s.st := s.taken_st
    exact ⟨fun h => .inl (hkeep.trans h), fun h => .inl (hkeep.trans h), hkeep.trans⟩

/-! ### Who writes the live registers -/

/-- How a command changes the live registers: not at all, an accepted INIT as a whole, an APPEND but for `outlen`, `f0`
and `f1`. -/
theorem CommandOutcome.live {i : Instr} {s t : State} (ho : CommandOutcome i s (.next t)) :
    t.live = s.live ∨
    (∃ outlen key salt pers, i = .init outlen key salt pers ∧ ValidOperands outlen key salt pers) ∨
    (∃ data, i = .append data) ∧ t.live.outlen = s.live.outlen ∧ t.live.f0 = s.live.f0 ∧ t.live.f1 = s.live.f1 := by
  cases ho with
  | error code => exact .inl rfl
  | fatal code => exact .inl rfl
  | init outlen key salt pers l hi hs hv => exact .inr (.inl ⟨outlen, key, salt, pers, hi, hv⟩)
  | append data l hi hs hl =>
    obtain ⟨hf0, hf1, hout⟩ := Live.absorb_keeps data hl
    exact .inr (.inr ⟨⟨data, hi⟩, hout, hf0, hf1⟩)
  | final d => exact .inl rfl
  | size n => exact .inl rfl

/-- Settles O13: the live registers after the command that is decoded; an illegal opcode byte writes none. -/
theorem onlyInitAndAppendWriteLiveRegisters : Obligations.OnlyInitAndAppendWriteLiveRegisters := by
  intro s t hseq ht
  obtain ⟨i, hd, -, ho⟩ | ⟨b, code, -, -, rfl⟩ := step_idle_next hseq ht
  · have hcases := ho.live
    rw [State.taken_live] at hcases
    obtain hkeep | ⟨outlen, key, salt, pers, rfl, hv⟩ | ⟨⟨data, rfl⟩, hout, hf0, hf1⟩ := hcases
    · simp [hkeep]
    · exact ⟨fun _ => .inl ⟨outlen, key, salt, pers, hd⟩, fun _ => ⟨outlen, key, salt, pers, hd, hv⟩⟩
    · exact ⟨fun _ => .inr ⟨data, hd⟩, by simp [hout, hf0, hf1]⟩
  · simp

/-! ### Tables and transients -/

/-- Settles O42: the ten rows and the two halves of QUAD, each a closed list. -/
theorem tablesArePermutations : Obligations.TablesArePermutations := by
  exact ⟨by decide, by decide, by decide⟩

/-- IVXOR without a value in PB reads free bytes. -/
theorem exec_ivxor_free {s : State} (h : s.pb = none) : exec .ivxor s = .next { s with
    live := { s.live with h := ivXor (Vector.ofFn fun i => freeByte (s.draws + i.val)) }, draws := s.draws + 32 } := by
  simp [exec, execIvxor, State.readPB, State.drawIf, h]

/-- ROUND without a value in `v` or `m` draws free words for both. -/
theorem exec_round_free {s : State} (r : Fin 10) (h : s.v = none ∨ s.m = none) :
    exec (.round r) s = .next { s with v := some (mixRound s.readM s.readV r), draws := s.draws + 32 } := by
  obtain h | h := h
  · simp [exec, execRound, State.drawIf, h]
  · simp [exec, execRound, State.drawIf, h]

/-- FEEDFWD without a value in `v` reads free words. -/
theorem exec_feedfwd_free {s : State} (h : Vector Word 8) (hv : s.v = none) : exec (.feedfwd h) s = .next { s with
    m := none, ret := some (.words (feedForward h (freeWords s.draws))), draws := s.draws + 32 } := by
  simp [exec, execFeedfwd, State.readV, State.drawIf, State.endCompression, hv]

/-- Settles O46: the three micro-operations on free values, word by word. -/
theorem deadTransientsReadFree : Obligations.DeadTransientsReadFree := by
  refine ⟨fun s hpb => ⟨_, exec_ivxor_free hpb, fun i => ?_⟩, fun r s h => exec_round_free r h,
    fun h s hv => ⟨_, exec_feedfwd_free h hv, fun i => ?_⟩⟩
  · simp [ivXor, paramWord, xor32]
  · simp [feedForward, freeWords, xor32]

end Sys2Proof.Machine
end

section
/-! PROOFS for the family 20_memory.md: no step reaches past the buffer (R54, R59), the stops where `buflen` is past its
range (R50; log 14), and no step for a second command in flight (R64; log 4). -/

namespace Sys2Proof.Machine

/-! ### No step reaches past the buffer -/

/-- A step that faults from an idle sequencer is the fault of the command that is decoded. -/
theorem step_idle_fault {s : State} {f : Fault} (h : s.seq = none) (hf : step s = .fault f) :
    ∃ i, decodeFrame s.port = .command i [] ∧ CommandOutcome i s.taken (.fault f) := by
  rw [step_idle h] at hf
  rcases hd : decodeFrame s.port with ⟨i, _ | _⟩ | ⟨b, _ | _⟩ | _ | _ <;> rw [hd] at hf
  · exact ⟨i, rfl, hf ▸ exec_command i _ (decodeFrame_command hd).1⟩
  all_goals cases hf

/-- With a fill in range no command faults: absorbing and the digest both answer. -/
theorem CommandOutcome.not_fault {i : Instr} {s : State} {f : Fault} (hfill : s.st = .ready → s.live.fillOk) :
    ¬ CommandOutcome i s (.fault f) := by
  intro ho
  cases ho with
  | fault _ hready hreach =>
    obtain ⟨data, habsorb⟩ | hdigest := hreach
    · obtain ⟨l, hok, -⟩ := Live.absorb_ok data (hfill hready)
      rw [hok] at habsorb
      cases habsorb
    · obtain ⟨blk, -, hok⟩ := Live.digest_ok (hfill hready)
      rw [hok] at hdigest
      cases hdigest

/-- Settles O16: the invariant holds the fill of a READY engine in range. -/
theorem invariantStatesNeverFault : Obligations.InvariantStatesNeverFault := by
  intro s f h hf
  obtain ⟨i, -, ho⟩ := step_idle_fault h.idle hf
  exact ho.not_fault fun hready => (h.taken.engine hready).fill

/-! ### A fill past the buffer -/

section past
variable {l : Live} (h : 64 < l.buflen.toNat)
include h

/-- Absorbing any byte with an impossible fill stops. -/
theorem Live.absorb_past {xs : List Byte} (hx : xs ≠ []) : l.absorb xs = .error .noSuchCell := by
  obtain ⟨x, xs, rfl⟩ := List.exists_cons_of_ne_nil hx
  rw [Live.absorb_cons, Live.absorb1_past x h]
  rfl

/-- PAD with an impossible fill stops. -/
theorem Live.pad_past : l.pad = .error .noSuchCell := by
  rw [Live.pad, if_neg (Nat.not_le.2 h)]

/-- The digest with an impossible fill stops at its PAD. -/
theorem Live.digest_past : l.digest = .error .noSuchCell := by
  rw [Live.digest, Live.pad_past h]

end past

/-- KEYBLK absorbs 64 bytes, whatever its key. -/
theorem keyBlockOperand_length (key : List Byte) (n : Nat) : (keyBlockOperand key n).length = 64 := by
  by_cases hin : 1 ≤ key.length ∧ key.length ≤ 32
  · rw [(keyBlockOperand_in n hin.1 hin.2).2]
    simp only [keyBlock, padr, zeros, Config.blockBytes, List.length_append, List.length_replicate]
    omega
  · have hout : key = [] ∨ 32 < key.length := by
      rw [← List.length_eq_zero_iff]
      omega
    rw [(keyBlockOperand_out n hout).2, freeBytes_length]

/-- Settles O58: each of the five reaches the buffer by absorbing a byte or by PAD. -/
theorem noCellPastTheBuffer : Obligations.NoCellPastTheBuffer := by
  intro s h
  refine ⟨fun x => ?absorb1, ?pad, fun x data hs => ?append, fun hs hflag => ?final, fun key => ?keyblk⟩
  case absorb1 => simp only [exec, execAbsorb1, Live.absorb1_past x h]
  case pad => simp only [exec, execPad, Live.pad_past h]
  case append => simp only [exec, execAppend, dispatch_ready hs, runAppend, Live.absorb_past h (List.cons_ne_nil x data)]
  case final =>
    simp only [exec, execFinal, dispatch_ready hs, runFinal, hflag, Live.digest_past h, ne_eq, not_true_eq_false, if_false]
  case keyblk =>
    have hbytes : keyBlockOperand key s.draws ≠ [] := by simp [← List.length_eq_zero_iff, keyBlockOperand_length]
    simp only [exec, execKeyblk, Live.absorb_past h hbytes]

/-! ### A second command in flight -/

/-- A length that fits one byte is read back from it. -/
theorem byteOf_toNat {n : Nat} (h : n ≤ 255) : (byteOf n).toNat = n := by
  simp only [byteOf, BitVec.toNat_ofNat]
  omega

/-- The four bytes of a word, read little-endian, are the word (00_scope.md R11). -/
theorem le32_wordBytes (w : Word) : le32 (wordByte w 0) (wordByte w 1) (wordByte w 2) (wordByte w 3) = w := by
  apply BitVec.eq_of_toNat_eq
  have hw := w.isLt
  simp only [le32, wordByte, BitVec.toNat_ofNat, BitVec.toNat_setWidth, BitVec.toNat_ushiftRight,
    Nat.shiftRight_eq_div_pow]
  omega

/-- An INIT frame whose length bytes are those of its fields: the drop of one field after another leaves the next. -/
theorem decodeInit_fields (ol : Byte) {kl sl pl : Byte} {key salt pers : List Byte} (rest : List Byte)
    (hk : kl.toNat = key.length) (hs : sl.toNat = salt.length) (hp : pl.toNat = pers.length) :
    decodeInit (ol :: kl :: sl :: pl :: (key ++ salt ++ pers ++ rest)) = .command (.init ol.toNat key salt pers) rest := by
  simp [decodeInit, hk, hs, hp, ← List.drop_drop, Nat.add_assoc]

/-- An APPEND frame whose length word is that of its data. -/
theorem decodeAppend_data {w : Word} {data : List Byte} (rest : List Byte) (h : w.toNat = data.length) :
    decodeAppend (bytesLE32 w ++ data ++ rest) = .command (.append data) rest := by
  simp [decodeAppend, bytesLE32, le32_wordBytes, h]

/-- The decoder reads a command back from its frame, whatever bytes follow (30_encoding.md R84, R87). -/
theorem decodeFrame_frameOf_append {i : Instr} (rest : List Byte) (hw : i.WellFormed) (hc : i.isCommand = true) :
    decodeFrame (frameOf i ++ rest) = .command i rest := by
  cases i <;> simp only [Instr.isCommand, Bool.false_eq_true] at hc
  case init outlen key salt pers =>
    simp only [Instr.WellFormed, Instr.wellFormed, Bool.and_eq_true, decide_eq_true_eq] at hw
    obtain ⟨⟨⟨⟨hpos, hmax⟩, hk⟩, hs⟩, hp⟩ := hw
    have hout : ((BitVec.ofInt 8 outlen).toNat : Int) = outlen := by
      rw [BitVec.toNat_ofInt]
      omega
    have hinit := decodeInit_fields (BitVec.ofInt 8 outlen) rest (byteOf_toNat hk) (byteOf_toNat hs) (byteOf_toNat hp)
    rwa [hout] at hinit
  case append data =>
    simp only [Instr.WellFormed, Instr.wellFormed, decide_eq_true_eq] at hw
    exact decodeAppend_data rest (by rw [BitVec.toNat_ofNat, Nat.mod_eq_of_lt hw])
  all_goals rfl

/-- Settles O59: what is decoded at the port leaves the byte `b` behind it. -/
theorem secondCommandInFlightHasNoStep : Obligations.SecondCommandInFlightHasNoStep := by
  rintro s b rest hseq (⟨i, hw, hc, hport⟩ | ⟨op, hop, hport⟩) <;> rw [step_idle hseq, hport]
  · rw [decodeFrame_frameOf_append (b :: rest) hw hc]
  · rw [decodeFrame_of_illegal (b :: rest) hop]

end Sys2Proof.Machine
end

section
/-! PROOFS for the family 30_encoding.md: frames and commands answer to each other one to one (R84, R87), the labels
(R90), the response frames (R85), and the answer to an illegal opcode byte (R86). -/

namespace Sys2Proof.Machine

/-! ### From a command to its frame and back -/

/-- Settles O1: the round trip of R84 and R87. -/
theorem frameDecodesToItsCommand : Obligations.FrameDecodesToItsCommand :=
  fun _ rest hw hc => decodeFrame_frameOf_append rest hw hc

/-! ### From bytes to a command and its frame -/

/-- A length byte is the length of a field it counts. -/
theorem byteOf_of_toNat_eq {b : Byte} {n : Nat} (h : n = b.toNat) : byteOf n = b := by
  rw [h, byteOf, BitVec.ofNat_toNat, BitVec.setWidth_eq]

/-- The word of four bytes has those four bytes: R11 both ways, with `le32_wordBytes`. -/
theorem bytesLE32_le32 (b0 b1 b2 b3 : Byte) : bytesLE32 (le32 b0 b1 b2 b3) = [b0, b1, b2, b3] := by
  have h0 := b0.isLt
  have h1 := b1.isLt
  have h2 := b2.isLt
  have h3 := b3.isLt
  simp only [bytesLE32, List.cons.injEq, and_true]
  refine ⟨?_, ?_, ?_, ?_⟩ <;>
  · apply BitVec.eq_of_toNat_eq
    simp only [le32, wordByte, BitVec.toNat_ofNat, BitVec.toNat_setWidth, BitVec.toNat_ushiftRight,
      Nat.shiftRight_eq_div_pow]
    omega

/-- Four fields in a row, the last one what is left. -/
theorem take_drop_fields (payload : List Byte) (k s p : Nat) :
    payload = payload.take k ++ (payload.drop k).take s ++ (payload.drop (k + s)).take p ++ payload.drop (k + s + p) := by
  simp only [← List.drop_drop, List.append_assoc, List.take_append_drop]

/-- What is read as the rest of an INIT frame is OL, the lengths of the three fields in one byte each, the fields, and
the bytes left over. -/
theorem decodeInit_command {bs rest : List Byte} {i : Instr} (h : decodeInit bs = .command i rest) :
    ∃ (ol : Byte) (key salt pers : List Byte), key.length ≤ 255 ∧ salt.length ≤ 255 ∧ pers.length ≤ 255 ∧
      i = .init ol.toNat key salt pers ∧
      bs = ol :: byteOf key.length :: byteOf salt.length :: byteOf pers.length :: (key ++ salt ++ pers ++ rest) := by
  unfold decodeInit at h
  split at h
  case h_2 => cases h
  case h_1 ol kl sl pl payload =>
    split at h
    case isFalse => cases h
    case isTrue hfits =>
      cases h
      have hk : (payload.take kl.toNat).length = kl.toNat := by rw [List.length_take]; omega
      have hs : ((payload.drop kl.toNat).take sl.toNat).length = sl.toNat := by
        rw [List.length_take, List.length_drop]; omega
      have hp : ((payload.drop (kl.toNat + sl.toNat)).take pl.toNat).length = pl.toNat := by
        rw [List.length_take, List.length_drop]; omega
      refine ⟨ol, _, _, _, hk.trans_le (by omega), hs.trans_le (by omega), hp.trans_le (by omega), rfl, ?_⟩
      rw [byteOf_of_toNat_eq hk, byteOf_of_toNat_eq hs, byteOf_of_toNat_eq hp, ← take_drop_fields]

/-- What is read as the rest of an APPEND frame is the length of the data as one word, the data, and the bytes left
over. -/
theorem decodeAppend_command {bs rest : List Byte} {i : Instr} (h : decodeAppend bs = .command i rest) :
    ∃ data : List Byte, data.length < 2 ^ 32 ∧ i = .append data ∧
      bs = bytesLE32 (BitVec.ofNat 32 data.length) ++ data ++ rest := by
  unfold decodeAppend at h
  split at h
  case h_2 => cases h
  case h_1 n0 n1 n2 n3 payload =>
    split at h
    case isFalse => cases h
    case isTrue hfits =>
      cases h
      have hn : (payload.take (le32 n0 n1 n2 n3).toNat).length = (le32 n0 n1 n2 n3).toNat := by
        rw [List.length_take]; omega
      refine ⟨_, hn.trans_lt (BitVec.isLt _), rfl, ?_⟩
      rw [hn, BitVec.ofNat_toNat, BitVec.setWidth_eq, bytesLE32_le32, List.append_assoc, List.take_append_drop]
      rfl

/-- An INIT whose OL is one byte and whose fields have one-byte lengths can be carried by a frame. -/
theorem init_wellFormed (ol : Byte) {key salt pers : List Byte} (hk : key.length ≤ 255) (hs : salt.length ≤ 255)
    (hp : pers.length ≤ 255) : (Instr.init ol.toNat key salt pers).WellFormed := by
  have hol := ol.isLt
  simp only [Instr.WellFormed, Instr.wellFormed, Bool.and_eq_true, decide_eq_true_eq]
  omega

/-- The frame of an INIT whose OL is one byte. -/
theorem frameOf_init (ol : Byte) (key salt pers : List Byte) : frameOf (.init ol.toNat key salt pers) =
    0x01 :: ol :: byteOf key.length :: byteOf salt.length :: byteOf pers.length :: (key ++ salt ++ pers) := by
  have hol : BitVec.ofInt 8 (ol.toNat : Int) = ol := by
    rw [BitVec.ofInt_natCast, BitVec.ofNat_toNat, BitVec.setWidth_eq]
  simp [frameOf, encode, hol]

/-- What the decoder reads as a command is well formed, and what it took is that command's frame: one case for each
opcode byte of R84. -/
theorem decodeFrame_canonical {bytes rest : List Byte} {i : Instr} (h : decodeFrame bytes = .command i rest) :
    i.WellFormed ∧ bytes = frameOf i ++ rest := by
  cases bytes with
  | nil => cases h
  | cons op bs =>
    simp only [decodeFrame] at h
    split at h
    case h_1 hop =>
      obtain rfl : op = 1 := BitVec.eq_of_toNat_eq hop
      obtain ⟨ol, key, salt, pers, hk, hs, hp, rfl, rfl⟩ := decodeInit_command h
      exact ⟨init_wellFormed ol hk hs hp, by rw [frameOf_init]; rfl⟩
    case h_2 hop =>
      obtain rfl : op = 2 := BitVec.eq_of_toNat_eq hop
      obtain ⟨data, hlen, rfl, rfl⟩ := decodeAppend_command h
      exact ⟨decide_eq_true hlen, rfl⟩
    case h_7 => cases h
    -- FINAL, BLKSZ, OUTSZ, RESET: the frame is the opcode byte alone.
    case h_3 hop | h_4 hop | h_5 hop | h_6 hop =>
      cases h
      exact ⟨rfl, congrArg (· :: rest) (BitVec.eq_of_toNat_eq hop)⟩

/-- Settles O2: the inversion of the decoder, frame by frame. -/
theorem decodedFrameIsCanonical : Obligations.DecodedFrameIsCanonical := by
  intro bytes rest i h
  obtain ⟨hw, hbytes⟩ := decodeFrame_canonical h
  exact ⟨hw, (decodeFrame_command h).1, hbytes⟩

/-! ### Tables and samples -/

/-- Settles O3: the sixteen codes of R90, one by one. -/
theorem labelsNameDistinctMicroOperations : Obligations.LabelsNameDistinctMicroOperations := by
  unfold Obligations.LabelsNameDistinctMicroOperations
  decide

/-- Settles O4: each frame is decoded by evaluation. -/
theorem sampleFramesDecode : Obligations.SampleFramesDecode :=
  ⟨rfl, rfl, rfl, rfl, rfl, rfl, rfl, rfl⟩

/-- Settles O5: the rows of R85, with the codes of R150. -/
theorem responseFramesAsTabulated : Obligations.ResponseFramesAsTabulated :=
  ⟨rfl, fun _ => rfl, fun _ => rfl, fun _ => rfl, rfl⟩

/-! ### An illegal opcode byte -/

/-- An illegal opcode byte is answered with the code of E_FAULTED or of E_ILLCMD (60_exceptions.md R153), and that
response is all that changes. -/
theorem illegalOpcode_answer (s : State) :
    illegalOpcode s = { s with output := s.output ++ [if s.st = .faulted then 0x0A else 0x09] } := by
  have hfaulted : raiseError .faulted s = s.respond (.err .faulted) := raiseError_nonfatal s rfl
  have hillegal : raiseError .illCmd s = s.respond (.err .illCmd) := raiseError_nonfatal s rfl
  unfold illegalOpcode
  split
  case h_1 hs =>
    rw [hfaulted, if_pos hs]
    rfl
  case h_2 hs | h_3 hs =>
    rw [hillegal, if_neg (by simp [hs])]
    rfl

/-- An illegal opcode byte alone at the port is taken and answered. -/
theorem step_of_illegal {s : State} {b : Byte} (h : s.seq = none) (hd : decodeFrame s.port = .illegal b []) :
    step s = .next (illegalOpcode s.taken) := by
  rw [step_idle h, hd]

/-- Settles O7: the byte is a whole frame, and taking it changes neither `st` nor what has been sent. -/
theorem illegalOpcodeByteAnswered : Obligations.IllegalOpcodeByteAnswered := by
  intro s b hseq hport hb
  rw [step_of_illegal hseq (hport ▸ decodeFrame_of_illegal [] hb), illegalOpcode_answer]
  simp only [State.taken_st, State.taken_output]

end Sys2Proof.Machine
end

section
/-! PROOFS for the family 40_param_init.md: the parameter block (R100), the chaining value (R101), the key block (R103),
and INIT, rejected (R102 steps 1 to 4) and accepted (R102 to R105). -/

namespace Sys2Proof.Machine

/-! ### Padding and the parameter block -/

/-- A padded sequence has the length it was padded to. -/
theorem padr_length {s : List Byte} {n : Nat} (h : s.length ≤ n) : (padr s n).length = n := by
  simp only [padr, zeros, List.length_append, List.length_replicate]
  omega

/-- The byte at an index of a padded sequence: padding adds the zeros a missing byte reads as. -/
theorem padr_getD (s : List Byte) (n i : Nat) : (padr s n).getD i 0 = s.getD i 0 := by
  simp only [padr, zeros, List.getD_eq_getElem?_getD, List.getElem?_append]
  split
  case isTrue => rfl
  case isFalse hi =>
    rw [List.getElem?_eq_none (Nat.le_of_not_lt hi), List.getElem?_replicate]
    split <;> rfl

/-- The bytes of a vector made of a sequence of its length. -/
theorem byteVector_toList {n : Nat} {s : List Byte} (h : s.length = n) : (byteVector n s).toList = s := by
  apply List.ext_getElem
  · simp [h]
  · intro i hi hi'
    simp [byteVector, hi']

/-- The parameter block as R100 lists its fields. -/
theorem marshalBytes_fields (outlen keylen : Byte) (salt pers : List Byte) : marshalBytes outlen keylen salt pers =
    [outlen, keylen, 0x01, 0x01] ++ List.replicate 12 0x00 ++ padr salt 8 ++ padr pers 8 :=
  rfl

/-- With fields of at most 8 bytes the parameter block is the 32 bytes of P. -/
theorem marshal_toList (outlen keylen : Byte) {salt pers : List Byte} (hs : salt.length ≤ 8) (hp : pers.length ≤ 8) :
    (marshal outlen keylen salt pers).toList = marshalBytes outlen keylen salt pers := by
  apply byteVector_toList
  simp [marshalBytes_fields, padr_length hs, padr_length hp]

/-- A field of P after its padding. -/
theorem padr_fieldOperand (field : List Byte) (n : Nat) : padr (fieldOperand field n) 8 =
    if field.length ≤ 8 then field ++ List.replicate (8 - field.length) 0x00 else freeBytes n 8 := by
  split
  case isTrue h =>
    rw [fieldOperand_short n h]
    rfl
  case isFalse h =>
    rw [fieldOperand_long n (Nat.lt_of_not_le h), padr, freeBytes_length]
    exact List.append_nil _

/-- MARSHAL of the fields the rule admits. -/
theorem exec_marshal (outlen keylen : Byte) {salt pers : List Byte} (s : State) (hs : salt.length ≤ 8)
    (hp : pers.length ≤ 8) :
    exec (.marshal outlen keylen salt pers) s = .next { s with pb := some (marshal outlen keylen salt pers) } :=
  execMarshal_short outlen keylen s hs hp

/-- Settles O20: the fields of the rule are marshalled as they are. -/
theorem marshalLaysOutParameterBlock : Obligations.MarshalLaysOutParameterBlock := by
  intro outlen keylen salt pers s _ _ _ hs hp
  exact ⟨_, exec_marshal outlen keylen s hs hp, marshal_toList outlen keylen hs hp⟩

/-! ### The chaining value -/

/-- A byte of P. -/
theorem marshal_getElem (outlen keylen : Byte) (salt pers : List Byte) {i : Nat} (hi : i < 32) :
    (marshal outlen keylen salt pers)[i] = (marshalBytes outlen keylen salt pers).getD i 0 := by
  simp [marshal, byteVector]

/-- The salt stands in P from byte 16 on. -/
theorem marshalBytes_salt (outlen keylen : Byte) {salt : List Byte} (pers : List Byte) (hs : salt.length ≤ 8) {i : Nat}
    (hi : i < 8) : (marshalBytes outlen keylen salt pers).getD (16 + i) 0 = salt.getD i 0 := by
  rw [marshalBytes_fields, List.append_assoc, List.getD_append_right _ _ _ _ (by simp),
    List.getD_append _ _ _ _ (by simp [padr_length hs, hi]), padr_getD]
  simp

/-- The personalization stands in P from byte 24 on. -/
theorem marshalBytes_pers (outlen keylen : Byte) {salt : List Byte} (pers : List Byte) (hs : salt.length ≤ 8) (i : Nat) :
    (marshalBytes outlen keylen salt pers).getD (24 + i) 0 = pers.getD i 0 := by
  rw [marshalBytes_fields, List.getD_append_right _ _ _ _ (by simp [padr_length hs]), padr_getD]
  simp [padr_length hs]

/-- Word `i` of P. -/
theorem paramWord_marshal (outlen keylen : Byte) (salt pers : List Byte) (i : Fin 8) :
    paramWord (marshal outlen keylen salt pers) i = le32 ((marshalBytes outlen keylen salt pers).getD (4 * i.val) 0)
      ((marshalBytes outlen keylen salt pers).getD (4 * i.val + 1) 0)
      ((marshalBytes outlen keylen salt pers).getD (4 * i.val + 2) 0)
      ((marshalBytes outlen keylen salt pers).getD (4 * i.val + 3) 0) := by
  simp only [paramWord, marshal_getElem]

/-- The bytes of P between the first word and the salt are zero. -/
theorem marshalBytes_zero (outlen keylen : Byte) (salt pers : List Byte) {i : Nat} (hi : 4 ≤ i) (hi' : i < 16) :
    (marshalBytes outlen keylen salt pers).getD i 0 = 0 := by
  interval_cases i <;> rfl

/-- Words 1 to 3 of P are zero. -/
theorem paramWord_marshal_zero (outlen keylen : Byte) (salt pers : List Byte) {i : Fin 8} (hi : 1 ≤ i.val)
    (hi' : i.val < 4) : paramWord (marshal outlen keylen salt pers) i = 0#32 := by
  have hzero (j : Nat) (hj : j < 4) :=
    marshalBytes_zero outlen keylen salt pers (i := 4 * i.val + j) (by omega) (by omega)
  rw [paramWord_marshal, hzero 1 (by decide), hzero 2 (by decide), hzero 3 (by decide)]
  exact congrArg (le32 · 0 0 0) (hzero 0 (by decide))

/-- Words 4 and 5 of P are the salt. -/
theorem paramWord_marshal_salt (outlen keylen : Byte) {salt : List Byte} (pers : List Byte) (hs : salt.length ≤ 8) :
    paramWord (marshal outlen keylen salt pers) 4 =
      le32 (salt.getD 0 0) (salt.getD 1 0) (salt.getD 2 0) (salt.getD 3 0) ∧
    paramWord (marshal outlen keylen salt pers) 5 =
      le32 (salt.getD 4 0) (salt.getD 5 0) (salt.getD 6 0) (salt.getD 7 0) := by
  have hbyte (i : Nat) (hi : i < 8) := marshalBytes_salt outlen keylen pers hs hi
  constructor
  · rw [paramWord_marshal, ← hbyte 0 (by decide), ← hbyte 1 (by decide), ← hbyte 2 (by decide), ← hbyte 3 (by decide)]
    rfl
  · rw [paramWord_marshal, ← hbyte 4 (by decide), ← hbyte 5 (by decide), ← hbyte 6 (by decide), ← hbyte 7 (by decide)]
    rfl

/-- Words 6 and 7 of P are the personalization. -/
theorem paramWord_marshal_pers (outlen keylen : Byte) {salt : List Byte} (pers : List Byte) (hs : salt.length ≤ 8) :
    paramWord (marshal outlen keylen salt pers) 6 =
      le32 (pers.getD 0 0) (pers.getD 1 0) (pers.getD 2 0) (pers.getD 3 0) ∧
    paramWord (marshal outlen keylen salt pers) 7 =
      le32 (pers.getD 4 0) (pers.getD 5 0) (pers.getD 6 0) (pers.getD 7 0) := by
  have hbyte := marshalBytes_pers outlen keylen pers hs
  constructor
  · rw [paramWord_marshal, ← hbyte 0, ← hbyte 1, ← hbyte 2, ← hbyte 3]
    rfl
  · rw [paramWord_marshal, ← hbyte 4, ← hbyte 5, ← hbyte 6, ← hbyte 7]
    rfl

/-- The chaining value word by word, the constants written out (10_state.md R20). -/
theorem ivXor_words (p : Vector Byte 32) : ivXor p =
    #v[0x6A09E667 ^^^ paramWord p 0, 0xBB67AE85 ^^^ paramWord p 1, 0x3C6EF372 ^^^ paramWord p 2,
      0xA54FF53A ^^^ paramWord p 3, 0x510E527F ^^^ paramWord p 4, 0x9B05688C ^^^ paramWord p 5,
      0x1F83D9AB ^^^ paramWord p 6, 0x5BE0CD19 ^^^ paramWord p 7] :=
  rfl

/-- The chaining value of a parameter block: constants 1 to 3 meet the zero fields of P and stay as they are. -/
theorem ivXor_marshal (outlen keylen : Byte) {salt : List Byte} (pers : List Byte) (hs : salt.length ≤ 8) :
    ivXor (marshal outlen keylen salt pers) =
      #v[0x6A09E667 ^^^ le32 outlen keylen 1 1, 0xBB67AE85, 0x3C6EF372, 0xA54FF53A,
        0x510E527F ^^^ le32 (salt.getD 0 0) (salt.getD 1 0) (salt.getD 2 0) (salt.getD 3 0),
        0x9B05688C ^^^ le32 (salt.getD 4 0) (salt.getD 5 0) (salt.getD 6 0) (salt.getD 7 0),
        0x1F83D9AB ^^^ le32 (pers.getD 0 0) (pers.getD 1 0) (pers.getD 2 0) (pers.getD 3 0),
        0x5BE0CD19 ^^^ le32 (pers.getD 4 0) (pers.getD 5 0) (pers.getD 6 0) (pers.getD 7 0)] := by
  have hfirst : paramWord (marshal outlen keylen salt pers) 0 = le32 outlen keylen 1 1 := by
    rw [paramWord_marshal]
    rfl
  have hzero (i : Fin 8) := paramWord_marshal_zero outlen keylen salt pers (i := i)
  obtain ⟨h4, h5⟩ := paramWord_marshal_salt outlen keylen pers hs
  obtain ⟨h6, h7⟩ := paramWord_marshal_pers outlen keylen pers hs
  rw [ivXor_words, hfirst, hzero 1 (by decide) (by decide), hzero 2 (by decide) (by decide),
    hzero 3 (by decide) (by decide), h4, h5, h6, h7]
  simp only [BitVec.xor_zero]

/-- Word 0 of P as one number: the two lengths, below fanout and depth, which are 1. -/
theorem le32_lengths {outlen : Int} {key : List Byte} (hpos : 1 ≤ outlen) (hmax : outlen ≤ 32)
    (hk : key.length ≤ 32) : le32 (BitVec.ofInt 8 outlen) (byteOf key.length) 1 1 =
      BitVec.ofNat 32 (0x01010000 + 0x100 * key.length + outlen.toNat) := by
  have hout : (BitVec.ofInt 8 outlen).toNat = outlen.toNat := by
    rw [BitVec.toNat_ofInt]
    omega
  have h1 : (1 : Byte).toNat = 1 := rfl
  rw [le32, hout, byteOf_toNat (by omega), h1]
  congr 1
  omega

/-- IVXOR with a value in PB. -/
theorem exec_ivxor {s : State} {p : Vector Byte 32} (h : s.pb = some p) :
    exec .ivxor s = .next { s with live := { s.live with h := ivXor p } } := by
  simp [exec, execIvxor, State.readPB, State.drawIf, h]

/-- Settles O21: IVXOR reads PB and writes `h`, word by word. -/
theorem ivxorWritesOnlyChainingValue : Obligations.IvxorWritesOnlyChainingValue := by
  intro p s hpb
  exact ⟨_, exec_ivxor hpb, fun i => by simp [ivXor, paramWord, xor32]⟩

/-! ### Bytes absorbed where there is room -/

/-- A run of bytes written from cell `a` on keeps the canonical form. -/
theorem Memory.writeRun_wf (xs : List Byte) {b : Memory} {a : Nat} (hb : b.wf = true) (h : a + xs.length ≤ 64) :
    (b.writeRun a xs).wf = true := by
  induction xs generalizing b a with
  | nil => exact hb
  | cons x xs ih =>
    rw [List.length_cons] at h
    exact ih (Memory.write_wf x hb (by omega)) (by omega)

/-- A read after a run of bytes was written from cell `a` on. -/
theorem Memory.read_writeRun (xs : List Byte) {b : Memory} {a : Nat} (hb : b.wf = true) (h : a + xs.length ≤ 64)
    (c : Nat) : (b.writeRun a xs).read c = if a ≤ c then xs.getD (c - a) (b.read c) else b.read c := by
  induction xs generalizing b a with
  | nil => simp [Memory.writeRun]
  | cons x xs ih =>
    rw [List.length_cons] at h
    rw [Memory.writeRun, ih (Memory.write_wf x hb (by omega)) (by omega), Memory.read_write hb]
    obtain hlt | rfl | hgt := Nat.lt_trichotomy c a
    · rw [if_neg (by omega), if_neg (by omega), if_neg (by omega)]
    · simp
    · rw [if_pos (by omega), if_neg (by omega), if_pos (by omega), show c - a = c - (a + 1) + 1 by omega,
        List.getD_cons_succ]

/-- Bytes for which there is room are stored in a run behind the pending ones and counted; no block is compressed
(41_append.md R112). -/
theorem Live.absorb_fits (xs : List Byte) {l : Live} (h : l.buflen.toNat + xs.length ≤ 64) :
    l.absorb xs = .ok { l with
      buf := l.buf.writeRun l.buflen.toNat xs, buflen := l.buflen + BitVec.ofNat 7 xs.length } := by
  induction xs generalizing l with
  | nil => simp [Memory.writeRun]
  | cons x xs ih =>
    rw [List.length_cons] at h
    have h64 : l.buflen.toNat < 64 := by omega
    have hsucc := buflen_succ h64
    rw [Live.absorb_cons, Live.absorb1_room x h64]
    have hcount : l.buflen + 1 + BitVec.ofNat 7 xs.length = l.buflen + BitVec.ofNat 7 (xs.length + 1) := by
      rw [Nat.add_comm xs.length, BitVec.ofNat_add, ← BitVec.add_assoc]
      rfl
    refine (ih (by simp only [hsucc]; omega)).trans ?_
    simp only [hsucc, hcount, Memory.writeRun, List.length_cons]

/-! ### The key block -/

/-- The key block has 64 bytes. -/
theorem keyBlock_length {key : List Byte} (hk : key.length ≤ 32) : (keyBlock key).length = 64 :=
  padr_length (by simp only [Config.blockBytes]; omega)

/-- The key block absorbed by an engine with nothing pending fills the buffer. -/
theorem Live.absorb_keyBlock {l : Live} {key : List Byte} (hl : l.buflen = 0) (hk : key.length ≤ 32) :
    l.absorb (keyBlock key) = .ok { l with buf := l.buf.writeRun 0 (keyBlock key), buflen := 64 } := by
  rw [Live.absorb_fits _ (by simp [hl, keyBlock_length hk]), keyBlock_length hk, hl]
  rfl

/-- The buffer then holds the key, right-zero-padded. -/
theorem Memory.read_writeRun_keyBlock {b : Memory} {key : List Byte} (hb : b.wf = true) (hk : key.length ≤ 32) {a : Nat}
    (ha : a < 64) : (b.writeRun 0 (keyBlock key)).read a = key.getD a 0 := by
  have hlen := keyBlock_length hk
  rw [Memory.read_writeRun _ hb (by omega), if_pos (Nat.zero_le a), Nat.sub_zero, ← padr_getD key 64 a,
    List.getD_eq_getElem _ _ (by omega), List.getD_eq_getElem _ _ (hlen.symm ▸ ha)]
  rfl

/-- Writing the key block keeps the canonical form. -/
theorem Memory.writeRun_keyBlock_wf {b : Memory} {key : List Byte} (hb : b.wf = true) (hk : key.length ≤ 32) :
    (b.writeRun 0 (keyBlock key)).wf = true :=
  Memory.writeRun_wf _ hb (by rw [keyBlock_length hk])

/-- KEYBLK of a key in the domain, once its 64 bytes are absorbed. -/
theorem exec_keyblk_in {key : List Byte} {s : State} {l : Live} (h1 : 1 ≤ key.length) (h2 : key.length ≤ 32)
    (hl : s.live.absorb (keyBlock key) = .ok l) : exec (.keyblk key) s = .next (s.absorbed 64 l) := by
  simp only [exec, execKeyblk_in s h1 h2, hl]

/-- KEYBLK of a key outside the domain, once its 64 free bytes are absorbed. -/
theorem exec_keyblk_out {key : List Byte} {s : State} {l : Live} (h : key = [] ∨ 32 < key.length)
    (hl : s.live.absorb (freeBytes s.draws 64) = .ok l) :
    exec (.keyblk key) s = .next { s.absorbed 64 l with draws := s.draws + 64 } := by
  simp only [exec, execKeyblk_out s h, hl]

/-- Settles O22: the key block fits the empty buffer, so no block is compressed. -/
theorem keyblkLeavesKeyBlockPending : Obligations.KeyblkLeavesKeyBlockPending := by
  intro key s h1 h2 hempty hwf
  refine ⟨_, ?_, Memory.writeRun_keyBlock_wf hwf h2, fun a ha => Memory.read_writeRun_keyBlock hwf h2 ha⟩
  rw [exec_keyblk_in h1 h2 (Live.absorb_keyBlock hempty h2), State.absorbed_room _ (by simp [hempty])]

/-- Absorbing 64 bytes compresses a block just when bytes are pending. -/
theorem Live.compresses_block (l : Live) : l.compresses 64 = true ↔ l.buflen ≠ 0 := by
  have h0 : (0 : BitVec 7).toNat = 0 := rfl
  simp only [Live.compresses, decide_eq_true_eq, ne_eq, ← BitVec.toNat_inj, h0]
  omega

/-- Settles O23: both absorb the same 64 bytes. -/
theorem keyblkIsAppendOfThePaddedKey : Obligations.KeyblkIsAppendOfThePaddedKey := by
  intro key s h1 h2 hready hfill
  obtain ⟨l, hl, happend⟩ := execAppend_ready (data := keyBlock key) hready hfill
  refine ⟨_, happend, ?_⟩
  rw [exec_keyblk_in h1 h2 hl, State.absorbed_eq]
  simp [Live.compresses_block]

/-! ### INIT -/

/-- The response byte of a rejected INIT: that of the first failing check (60_exceptions.md R150, R156). -/
theorem constructionError_number {outlen : Int} {key salt pers : List Byte} {code : ErrorCode}
    (h : constructionError outlen key salt pers = some code) : code.number =
      if outlen ≤ 0 ∨ 32 < outlen then 0x01 else if 32 < key.length then 0x02 else if 8 < salt.length then 0x03 else 0x04 := by
  simp only [constructionError, Config.outBytesMax, Config.keyBytesMax, Config.saltBytes, Config.persBytes] at h
  split at h
  case isTrue hout =>
    cases h
    exact (if_pos hout).symm
  case isFalse hout =>
    refine .trans ?_ (if_neg hout).symm
    split at h
    case isTrue hkey =>
      cases h
      exact (if_pos hkey).symm
    case isFalse hkey =>
      refine .trans ?_ (if_neg hkey).symm
      split at h
      case isTrue hsalt =>
        cases h
        exact (if_pos hsalt).symm
      case isFalse hsalt =>
        refine .trans ?_ (if_neg hsalt).symm
        split at h <;> cases h
        rfl

/-- Settles O17: of the three things INIT can do, the one left is a construction error. -/
theorem initRejectsInListOrder : Obligations.InitRejectsInListOrder := by
  intro outlen key salt pers s hs hv
  obtain ⟨hfaulted, -⟩ | ⟨-, -, code, hcode, e⟩ | ⟨-, hvalid, -⟩ := execInit_cases outlen key salt pers s
  · exact absurd hfaulted hs
  · rw [← constructionError_number hcode]
    exact e
  · exact absurd hvalid hv

/-- An accepted INIT: the new engine absorbs what step 9 gives it. -/
theorem exec_init_valid {outlen : Int} {key salt pers : List Byte} {s : State} (hs : s.st ≠ .faulted)
    (hv : ValidOperands outlen key salt pers) : ∃ l : Live,
      (s.live.construct outlen key salt pers).absorb (keyInput key) = .ok l ∧
      exec (.init outlen key salt pers) s = .next (({ s with live := l, st := .ready }).endTransients.respond .ok) := by
  obtain ⟨hfaulted, -⟩ | ⟨-, hinvalid, -⟩ | ⟨-, -, haccepted⟩ := execInit_cases outlen key salt pers s
  · exact absurd hfaulted hs
  · exact absurd hv hinvalid
  · exact haccepted

/-- Step 9 of INIT on an engine with nothing pending: no key leaves it as it is, a key leaves its block pending. -/
theorem Live.absorb_keyInput {l : Live} {key : List Byte} (hl : l.buflen = 0) (hk : key.length ≤ 32) :
    l.absorb (keyInput key) = .ok (if key = [] then l else
      { l with buf := l.buf.writeRun 0 (keyBlock key), buflen := 64 }) := by
  cases key with
  | nil => rfl
  | cons x xs => exact Live.absorb_keyBlock hl hk

/-- Settles O18: the constructed engine, without and with a key block. -/
theorem initBuildsEngine : Obligations.InitBuildsEngine := by
  intro outlen key salt pers s hs hwf hv
  obtain ⟨l, hl, hexec⟩ := exec_init_valid hs hv
  obtain ⟨hpos, hmax, hk, hsalt, hpers⟩ := hv
  have hh : (s.live.construct outlen key salt pers).h = _ := ivXor_marshal _ _ pers hsalt
  rw [le32_lengths hpos hmax hk] at hh
  have hout : ((s.live.construct outlen key salt pers).outlen.toNat : Int) = outlen := by
    simp only [Live.construct, BitVec.toNat_ofInt]
    omega
  rw [Live.absorb_keyInput rfl hk] at hl
  refine ⟨l, hexec, ?_⟩
  split at hl <;> cases hl
  case isTrue hnil => exact ⟨hh, rfl, rfl, rfl, rfl, hout, hwf, fun _ => ⟨rfl, rfl⟩, absurd hnil⟩
  case isFalse hkey =>
    exact ⟨hh, rfl, rfl, rfl, rfl, hout, Memory.writeRun_keyBlock_wf hwf hk, fun h => absurd h hkey,
      fun _ => ⟨rfl, fun a ha => Memory.read_writeRun_keyBlock hwf hk ha⟩⟩

/-- Settles O19: new engines of the same operands are alike, and absorb the key block alike. -/
theorem initForgetsTheEarlierEngine : Obligations.InitForgetsTheEarlierEngine := by
  intro outlen key salt pers s s' hs hs' hwf hwf' hv
  obtain ⟨l, hl, hexec⟩ := exec_init_valid hs hv
  obtain ⟨l', hl', hexec'⟩ := exec_init_valid hs' hv
  obtain ⟨m, hm, halike⟩ := (Live.construct_alike hwf hwf' outlen key salt pers).absorb hl
  rw [hl'] at hm
  cases hm
  exact ⟨_, _, hexec, hexec', rfl, rfl, halike.agree⟩

/-- MARSHAL and then IVXOR, for the fields the rule admits: P and the chaining value it gives. -/
theorem runAll_marshal_ivxor (outlen keylen : Byte) {salt pers : List Byte} (s : State) (hs : salt.length ≤ 8)
    (hp : pers.length ≤ 8) : runAll [.marshal outlen keylen salt pers, .ivxor] s = .next { s with
      pb := some (marshal outlen keylen salt pers),
      live := { s.live with h := ivXor (marshal outlen keylen salt pers) } } := by
  have hivxor := exec_ivxor (s := { s with pb := some (marshal outlen keylen salt pers) }) rfl
  simp only [runAll, exec_marshal outlen keylen s hs hp, hivxor]

/-- Settles O24: the key block leaves `h` as step 6 wrote it, there being room for it. -/
theorem initIsMarshalThenIvxor : Obligations.InitIsMarshalThenIvxor := by
  intro outlen key salt pers s hs hv
  obtain ⟨l, hl, hexec⟩ := exec_init_valid hs hv
  obtain ⟨-, -, hk, hsalt, hpers⟩ := hv
  refine ⟨_, _, hexec, runAll_marshal_ivxor _ _ s hsalt hpers, ?_⟩
  rw [Live.absorb_keyInput rfl hk] at hl
  split at hl <;> cases hl <;> rfl

/-! ### Operands outside the rules' domains -/

/-- MARSHAL of any operands: the two fields of P as they are or free. -/
theorem exec_marshal_any (outlen keylen : Byte) (salt pers : List Byte) (s : State) :
    exec (.marshal outlen keylen salt pers) s = .next { s with
      pb := some (marshal outlen keylen (fieldOperand salt s.draws) (fieldOperand pers (s.draws + 8))),
      draws := if 8 < salt.length ∨ 8 < pers.length then s.draws + 16 else s.draws } := by
  simp only [exec, execMarshal, State.drawIf, Bool.or_eq_true, decide_eq_true_eq]

/-- Settles O25: the fields of MARSHAL, the 64 ABSORB1 of KEYBLK, and the bytes EXTRACT finds. -/
theorem microOperandsOutsideTheirRules : Obligations.MicroOperandsOutsideTheirRules := by
  refine ⟨fun outlen keylen salt pers s => ?marshal, fun key s hkey hfill => ?keyblk,
    fun h outlen s => ⟨_, rfl, extractBytes_length h outlen, fun j hj => extractBytes_getElem? h j hj⟩⟩
  case marshal =>
    refine ⟨_, exec_marshal_any outlen keylen salt pers s, ?_⟩
    rw [marshal_toList _ _ (fieldOperand_length _ _) (fieldOperand_length _ _), marshalBytes_fields, padr_fieldOperand,
      padr_fieldOperand]
  case keyblk =>
    obtain ⟨l, hl, -⟩ := Live.absorb_ok (freeBytes s.draws 64) hfill
    refine ⟨_, runAll_absorb1 _ hfill hl, ?_⟩
    rw [exec_keyblk_out hkey hl, freeBytes_length]

end Sys2Proof.Machine
end

section
/-! PROOFS for the family 41_append.md: the counter (R111), one byte absorbed (R110), APPEND (R112, R115), its block-wise
form (R113), and streaming equivalence (R114). -/

namespace Sys2Proof.Machine

/-! ### CTRADD and ABSORB1 -/

/-- The two words of a counter after an add. -/
theorem counterAdd_words (t0 t1 n : Word) :
    (counterAdd t0 t1 n).1.toNat = (counterValue t0 t1 + n.toNat) % 2 ^ 64 % 2 ^ 32 ∧
    (counterAdd t0 t1 n).2.toNat = (counterValue t0 t1 + n.toNat) % 2 ^ 64 / 2 ^ 32 := by
  rw [← counterAdd_value]
  exact counterValue_words _ _

/-- Settles O26: CTRADD writes the words of the sum, and its operand fits a word. -/
theorem counterAddIsSixtyFourBit : Obligations.CounterAddIsSixtyFourBit := by
  intro n s
  have hn : (BitVec.ofNat 32 n.val).toNat = n.val := by
    rw [BitVec.toNat_ofNat]
    omega
  have hwords := counterAdd_words s.live.t0 s.live.t1 (BitVec.ofNat 32 n.val)
  rw [hn] at hwords
  exact ⟨_, _, rfl, hwords⟩

/-- ABSORB1, once the live registers have taken the byte. -/
theorem exec_absorb1 {x : Byte} {s : State} {l : Live} (h : s.live.absorb1 x = .ok l) :
    exec (.absorb1 x) s = .next (s.absorbed 1 l) := by
  simp only [exec, execAbsorb1, h]

/-- Settles O27: with room in the buffer, and with a deferred block. -/
theorem absorbStoresOneByte : Obligations.AbsorbStoresOneByte := by
  refine ⟨fun x s hroom hwf => ?room, fun x s hfull hwf => ?full⟩
  case room =>
    refine ⟨_, ?_, Memory.write_wf x hwf hroom, Memory.read_write hwf _ x⟩
    rw [exec_absorb1 (Live.absorb1_room x hroom), State.absorbed_room _ hroom]
  case full =>
    refine ⟨_, _, _, ?_, rfl, Memory.write_wf x hwf (by omega), Memory.read_write hwf 0 x⟩
    rw [exec_absorb1 (Live.absorb1_full x hfull), State.absorbed_over _ (by simp [hfull])]
    rfl

/-! ### APPEND -/

/-- APPEND with an engine, once the live registers have taken the bytes. -/
theorem exec_append {data : List Byte} {s : State} {l : Live} (hs : s.st = .ready) (h : s.live.absorb data = .ok l) :
    exec (.append data) s = .next (({ s with live := l }).endTransients.respond (.count data.length)) := by
  simp only [exec, execAppend, dispatch_ready hs, runAppend, h]

/-- Settles O30: the loop of R112 has no turn. -/
theorem emptyAppendChangesNoRegister : Obligations.EmptyAppendChangesNoRegister :=
  fun s hs => exec_append hs (Live.absorb_nil s.live)

/-- Settles O28: `absorb_room` where there is room for all the bytes, `absorb_count` where there is not. -/
theorem appendCountsAndFills : Obligations.AppendCountsAndFills := by
  intro data s hs hfill
  obtain ⟨l, hl, -, hf0, hf1, hout⟩ := Live.absorb_ok data hfill
  refine ⟨l, exec_append hs hl, hout, hf0, hf1, fun hroom => ?room, fun c hmore hc => ?compresses⟩
  case room =>
    obtain ⟨hh, ht0, ht1, hlen⟩ := Live.absorb_room data hl hroom
    exact ⟨hlen, hh, ht0, ht1⟩
  case compresses =>
    obtain ⟨c', -, hc', hlen, hcount⟩ := Live.absorb_count data hl hfill
    obtain rfl : c' = c := Nat.succ_inj.1 ((hc' hmore).trans hc.symm)
    exact ⟨hlen, hcount⟩

/-- Settles O31: `absorb_append` with one byte in the second go. -/
theorem appendIsAbsorbOfEachByte : Obligations.AppendIsAbsorbOfEachByte := by
  intro data x s hs hfill
  obtain ⟨l, hl, hfill', -⟩ := Live.absorb_ok data hfill
  obtain ⟨l', hl', -⟩ := Live.absorb1_ok x hfill'
  have hboth : s.live.absorb (data ++ [x]) = .ok l' := by
    rw [Live.absorb_append, hl]
    exact (Live.absorb_cons l x []).trans (by rw [hl']; rfl)
  exact ⟨_, _, _, exec_append hs hl, exec_absorb1 hl', exec_append hs hboth, (State.absorbed_live _ 1 l').symm⟩

/-! ### The bytes APPEND leaves in the buffer -/

/-- One byte absorbed is written to the cell the fill points at, modulo 64, and moves the fill to the next one. -/
theorem Live.absorb1_cell {l l' : Live} {x : Byte} (e : l.absorb1 x = .ok l') (hf : l.fillOk) :
    l'.buf = l.buf.write (l.buflen.toNat % 64) x ∧ l'.buflen.toNat % 64 = (l.buflen.toNat + 1) % 64 := by
  by_cases h64 : l.buflen.toNat < 64
  · rw [Live.absorb1_room x h64] at e
    cases e
    exact ⟨by rw [Nat.mod_eq_of_lt h64], by rw [buflen_succ h64]⟩
  · have hfull := Live.full_of_fillOk hf h64
    rw [Live.absorb1_full x hfull] at e
    cases e
    simp [hfull]

/-- Bytes absorbed change no cell they do not fall on. -/
theorem Live.absorb_read_other (xs : List Byte) {l l' : Live} (e : l.absorb xs = .ok l') (hf : l.fillOk)
    (hw : l.buf.wf = true) {a : Nat} (ha : ∀ j, j < xs.length → (l.buflen.toNat + j) % 64 ≠ a) :
    l'.buf.read a = l.buf.read a := by
  induction xs generalizing l with
  | nil =>
    cases e
    rfl
  | cons x xs ih =>
    obtain ⟨l1, e1, -, hf1, -⟩ := Live.absorb1_ok x hf
    obtain ⟨hbuf, hfill⟩ := Live.absorb1_cell e1 hf
    rw [Live.absorb_cons, e1] at e
    have hother : a ≠ l.buflen.toNat % 64 := (ha 0 (Nat.succ_pos _)).symm
    have hrest : ∀ j, j < xs.length → (l1.buflen.toNat + j) % 64 ≠ a := by
      intro j hj
      have := ha (j + 1) (Nat.succ_lt_succ hj)
      omega
    rw [ih e hf1 (Live.absorb1_wf hw e1) hrest, hbuf, Memory.read_write_other hw x hother]

/-- A byte absorbed where there is room is pending behind the others. -/
theorem Live.pending_store {l : Live} (x : Byte) (hw : l.buf.wf = true) (h : l.buflen.toNat < 64) :
    Live.pending { l with buf := l.buf.write l.buflen.toNat x, buflen := l.buflen + 1 } = l.pending ++ [x] := by
  have hkept : ∀ a ∈ List.range l.buflen.toNat, (l.buf.write l.buflen.toNat x).read a = l.buf.read a :=
    fun a ha => Memory.read_write_other hw x (List.mem_range.1 ha).ne
  simp only [Live.pending, buflen_succ h, List.range_succ, List.map_append, List.map_congr_left hkept, List.map_singleton,
    Memory.read_write_same hw]

/-- After one byte absorbed the pending bytes are the last ones: all of them, or that byte alone. -/
theorem Live.absorb1_pending {l l' : Live} {x : Byte} (e : l.absorb1 x = .ok l') (hf : l.fillOk)
    (hw : l.buf.wf = true) : l'.pending <:+ l.pending ++ [x] := by
  by_cases h64 : l.buflen.toNat < 64
  · rw [Live.absorb1_room x h64] at e
    cases e
    rw [Live.pending_store x hw h64]
  · rw [Live.absorb1_full x (Live.full_of_fillOk hf h64)] at e
    cases e
    have hone : Live.pending { l.compressDeferred with buf := l.buf.write 0 x, buflen := 1 } = [x] :=
      congrArg (fun y => [y]) (Memory.read_write_same hw 0 x)
    rw [hone]
    exact List.suffix_append l.pending [x]

/-- After bytes absorbed the pending bytes are the last ones of those pending before and those absorbed (R115). -/
theorem Live.absorb_pending (xs : List Byte) {l l' : Live} (e : l.absorb xs = .ok l') (hf : l.fillOk)
    (hw : l.buf.wf = true) : l'.pending <:+ l.pending ++ xs := by
  induction xs generalizing l with
  | nil =>
    cases e
    rw [List.append_nil]
  | cons x xs ih =>
    obtain ⟨l1, e1, -, hf1, -⟩ := Live.absorb1_ok x hf
    rw [Live.absorb_cons, e1] at e
    calc l'.pending <:+ l1.pending ++ xs := ih e hf1 (Live.absorb1_wf hw e1)
      _ <:+ l.pending ++ [x] ++ xs := List.suffix_append_self_iff.2 (Live.absorb1_pending e1 hf hw)
      _ = l.pending ++ x :: xs := List.append_cons .. |>.symm

/-- Settles O29: the pending bytes are a suffix of known length. -/
theorem appendKeepsTheLastBytesPending : Obligations.AppendKeepsTheLastBytesPending := by
  intro data s t hs hfill hwf hexec
  obtain ⟨l, hl, -⟩ := Live.absorb_ok data hfill
  rw [exec_append hs hl] at hexec
  cases hexec
  refine ⟨Live.absorb_wf data hwf hl, ?_, fun a ha => Live.absorb_read_other data hl hfill hwf ha⟩
  have hlast := List.suffix_iff_eq_drop.1 (Live.absorb_pending data hl hfill hwf)
  rwa [List.length_append, Live.pending_length, Live.pending_length] at hlast

/-! ### Pieces -/

/-- Bytes absorbed in one go, split in two. -/
theorem Live.absorb_split {xs ys : List Byte} {l l' : Live} (h : l.absorb (xs ++ ys) = .ok l') :
    ∃ l1, l.absorb xs = .ok l1 ∧ l1.absorb ys = .ok l' := by
  rw [Live.absorb_append] at h
  cases e : l.absorb xs with
  | error f =>
    rw [e] at h
    cases h
  | ok l1 =>
    rw [e] at h
    exact ⟨l1, rfl, h⟩

/-- One APPEND per piece leaves the live registers the joined pieces leave when absorbed in one go, and the engine READY. -/
theorem runAll_appendPieces (pieces : List (List Byte)) {s : State} {l : Live} (hs : s.st = .ready)
    (h : s.live.absorb pieces.flatten = .ok l) :
    ∃ t, runAll (appendPieces pieces) s = .next t ∧ t.live = l ∧ t.st = .ready := by
  induction pieces generalizing s with
  | nil =>
    cases h
    exact ⟨s, rfl, rfl, hs⟩
  | cons piece pieces ih =>
    obtain ⟨l1, hpiece, hrest⟩ := Live.absorb_split h
    obtain ⟨t, hrun, ht⟩ := ih (s := ({ s with live := l1 }).endTransients.respond (.count piece.length)) hs hrest
    refine ⟨t, ?_, ht⟩
    rw [appendPieces, List.map_cons, runAll, exec_append hs hpiece]
    exact hrun

/-- Settles O32: both absorb the joined pieces. -/
theorem streamingEquivalence : Obligations.StreamingEquivalence := by
  intro pieces s hs hfill
  obtain ⟨l, hl, -⟩ := Live.absorb_ok pieces.flatten hfill
  obtain ⟨t, hrun, hlive, hst⟩ := runAll_appendPieces pieces hs hl
  exact ⟨t, _, hrun, exec_append hs hl, hlive, hst.trans hs.symm⟩

/-- Settles O33: `absorb_count` from fill and counter 0. -/
theorem absorbedLengthFixesFillAndCounter : Obligations.AbsorbedLengthFixesFillAndCounter := by
  intro pieces s hs hbuflen ht0 ht1
  have hfill0 : s.live.buflen.toNat = 0 := by rw [hbuflen]; rfl
  have hcount0 : s.live.counter = 0 := by rw [Live.counter, ht0, ht1]; rfl
  have hfill : s.live.fillOk := Nat.le_trans hfill0.le (Nat.zero_le 64)
  obtain ⟨l, hl, -⟩ := Live.absorb_ok pieces.flatten hfill
  obtain ⟨t, hrun, rfl, -⟩ := runAll_appendPieces pieces hs hl
  refine ⟨t, hrun, fun hnil => ?nothing, fun hne => ?some⟩
  case nothing =>
    rw [hnil] at hl
    have hsame : s.live = t.live := Except.ok.inj hl
    exact hsame ▸ ⟨hbuflen, hcount0, rfl⟩
  case some =>
    obtain ⟨c, hroom, hmore, hlen, hcount⟩ := Live.absorb_count _ hl hfill
    have hpos := List.length_pos_iff.2 hne
    have hc : c = (pieces.flatten.length - 1) / 64 := by omega
    exact ⟨by omega, by rw [hcount, hcount0, hc, Nat.zero_add]⟩

/-! ### The block-wise form -/

/-- A deferred block is compressed before the first of some bytes is absorbed. -/
theorem Live.absorb_full {l : Live} {xs : List Byte} (h : l.buflen = 64) (hx : xs ≠ []) :
    l.absorb xs = l.compressDeferred.absorb xs := by
  obtain ⟨x, xs, rfl⟩ := List.exists_cons_of_ne_nil hx
  have hfirst : l.absorb1 x = l.compressDeferred.absorb1 x := by
    rw [Live.absorb1_full x h, Live.absorb1_room x (by simp)]
    rfl
  rw [Live.absorb_cons, hfirst, ← Live.absorb_cons]

/-- A turn of the loop of R113 compresses a deferred block first. -/
theorem Live.copyRun_full {l : Live} (data : List Byte) (h : l.buflen = 64) :
    l.copyRun data = l.compressDeferred.copyRun data := by
  simp [Live.copyRun, h]

/-- A turn of the loop of R113 with room in the buffer, the number `k` of bytes copied named. -/
theorem Live.copyRun_room {l : Live} {data : List Byte} {k : Nat} (h : l.buflen.toNat < 64)
    (hk : k = min (64 - l.buflen.toNat) data.length) : l.copyRun data =
      ({ l with buf := l.buf.writeRun l.buflen.toNat (data.take k), buflen := l.buflen + BitVec.ofNat 7 k }, data.drop k) := by
  have hne : l.buflen ≠ 64 := by
    intro e
    simp [e] at h
  simp only [Live.copyRun, if_neg hne, ← hk]

/-- With room in the buffer, a turn of the loop of R113 absorbs a part of the data, at least one byte, and leaves the rest. -/
theorem Live.absorb_copyRun_room {l : Live} {data : List Byte} (h : l.buflen.toNat < 64) (hd : data ≠ []) :
    (l.copyRun data).1.fillOk ∧ (l.copyRun data).2.length < data.length ∧
    l.absorb data = (l.copyRun data).1.absorb (l.copyRun data).2 := by
  have hpos := List.length_pos_iff.2 hd
  obtain ⟨k, hk⟩ : ∃ k, k = min (64 - l.buflen.toNat) data.length := ⟨_, rfl⟩
  have hlen : (data.take k).length = k := List.length_take_of_le (by omega)
  have htaken : l.absorb (data.take k) = .ok (l.copyRun data).1 := by
    rw [Live.copyRun_room h hk, Live.absorb_fits _ (by omega), hlen]
  have hrest : (l.copyRun data).2 = data.drop k := by rw [Live.copyRun_room h hk]
  refine ⟨Live.absorb_fillOk _ htaken h.le, by rw [hrest, List.length_drop]; omega, ?_⟩
  calc l.absorb data = l.absorb (data.take k ++ data.drop k) := by rw [List.take_append_drop]
    _ = (l.copyRun data).1.absorb (l.copyRun data).2 := by rw [Live.absorb_append, htaken, hrest]; rfl

/-- So it does with any fill in range: a deferred block is compressed first, by the turn as by the first byte. -/
theorem Live.absorb_copyRun {l : Live} {data : List Byte} (hf : l.fillOk) (hd : data ≠ []) :
    (l.copyRun data).1.fillOk ∧ (l.copyRun data).2.length < data.length ∧
    l.absorb data = (l.copyRun data).1.absorb (l.copyRun data).2 := by
  by_cases h64 : l.buflen.toNat < 64
  · exact Live.absorb_copyRun_room h64 hd
  · have hfull := Live.full_of_fillOk hf h64
    rw [Live.copyRun_full data hfull, Live.absorb_full hfull hd]
    exact Live.absorb_copyRun_room (by simp) hd

/-- With as many turns as bytes, the loop of R113 absorbs them all. -/
theorem Live.absorb_eq_absorbRuns (turns : Nat) {l : Live} {data : List Byte} (hf : l.fillOk) (hn : data.length ≤ turns) :
    l.absorb data = .ok (l.absorbRuns turns data) := by
  induction turns generalizing l data with
  | zero =>
    obtain rfl := List.length_eq_zero_iff.1 (Nat.le_zero.1 hn)
    rfl
  | succ turns ih =>
    cases data with
    | nil => rfl
    | cons x xs =>
      obtain ⟨hf', hless, hturn⟩ := Live.absorb_copyRun hf (List.cons_ne_nil x xs)
      rw [hturn]
      exact ih hf' (Nat.le_of_lt_succ (Nat.lt_of_lt_of_le hless hn))

/-- Settles O34: each turn takes at least one byte, so `|data|` turns are enough. -/
theorem blockwiseAppendEqualsBytewise : Obligations.BlockwiseAppendEqualsBytewise :=
  fun data _ hfill => Live.absorb_eq_absorbRuns data.length hfill le_rfl

end Sys2Proof.Machine
end

section
/-! PROOFS for the family 42_compress.md: the word operators (R120 to R122), the micro-operations of one compression and
what each leaves unchanged (R123 to R128), the lanes of a round (R127), and COMPRESS as the run of its micro-operations
(R129). -/

namespace Sys2Proof.Machine

/-! ### Words and blocks -/

/-- Settles O35: the sum of bit vectors is the sum modulo 2³², and their XOR goes bit by bit. -/
theorem addWrapsAndXorIsBitwise : Obligations.AddWrapsAndXorIsBitwise := by
  exact ⟨fun a b s => ⟨_, rfl, BitVec.toNat_add a b⟩, fun a b s => ⟨_, rfl, fun i _ => BitVec.getLsbD_xor⟩⟩

/-- Settles O36: the bit law of the rotation, at the places of each amount. -/
theorem rotateRightMovesBits : Obligations.RotateRightMovesBits := by
  intro x n s
  refine ⟨_, rfl, fun i hi => ?_⟩
  rw [rotr32_getLsbD x n hi]
  cases n <;> rfl

/-- Message word `k` of a block, from the four bytes that begin at byte `4k`. -/
theorem msgWords_byteVector (block : List Byte) (k : Fin 16) : (msgWords (byteVector 64 block))[k] =
    le32 (block.getD (4 * k.val) 0) (block.getD (4 * k.val + 1) 0) (block.getD (4 * k.val + 2) 0)
      (block.getD (4 * k.val + 3) 0) := by
  simp [msgWords, byteVector]

/-- Settles O37: a message word is little-endian, and its byte `j` is byte `4k + j` of the block. -/
theorem messageWordsAreLittleEndian : Obligations.MessageWordsAreLittleEndian := by
  intro block s hlen
  refine ⟨_, exec_msgload s hlen, fun k j i hj hi => ?_⟩
  rw [msgWords_byteVector, le32_getLsbD _ _ _ _ hj hi]
  interval_cases j <;> rfl

/-- F_BLOCKLEN is fatal: its code is answered and the engine is FAULTED (60_exceptions.md R150, R158). -/
theorem raiseError_blockLen (s : State) :
    raiseError .blockLen s = { s with st := .faulted, output := s.output ++ [0x05] } :=
  rfl

/-- Settles O38: both micro-operations read their block through the same check. -/
theorem wrongBlockLengthIsFatal : Obligations.WrongBlockLengthIsFatal := by
  intro h block t0 t1 f0 f1 s hlen
  constructor
  · simp only [exec, execMsgload, blockOf_none hlen, raiseError_blockLen]
  · simp only [exec, execCompress, blockOf_none hlen, raiseError_blockLen]

/-! ### The working vector and G -/

/-- VINIT writes the working vector. -/
theorem exec_vinit (h : Vector Word 8) (t0 t1 f0 f1 : Word) (s : State) :
    exec (.vinit h t0 t1 f0 f1) s = .next { s with v := some (initVector h t0 t1 f0 f1) } :=
  rfl

/-- Settles O39: the sixteen words of the vector VINIT builds. -/
theorem initialWorkingVector : Obligations.InitialWorkingVector := by
  intro h t0 t1 f0 f1 s
  simp only [exec_vinit, initVector, xor32]

/-- Settles O40: the two halves of G are four steps each, with the amounts of R23. -/
theorem mixingFunctionEightSteps : Obligations.MixingFunctionEightSteps := by
  intro a b c d x y s
  simp only [exec, execG, mixG, mixHalf, rotr32_eq, rotPlaces, add32, xor32]

/-- A rotation loses no bit: bit `i` of its operand is bit `(i - n) mod 32` of its result. -/
theorem rotr32_injective (n : RotAmount) : Function.Injective (rotr32 · n) := by
  intro x y (h : rotr32 x n = rotr32 y n)
  obtain ⟨-, hn⟩ := rotPlaces_range n
  refine BitVec.eq_of_getLsbD_eq fun i hi => ?_
  have hbit := congrArg (·.getLsbD ((i + (32 - rotPlaces n)) % 32)) h
  simp only [rotr32_getLsbD _ n (Nat.mod_lt _ (by decide : 32 > 0))] at hbit
  rwa [show ((i + (32 - rotPlaces n)) % 32 + rotPlaces n) % 32 = i by omega] at hbit

/-- The four steps of a half of G are undone from the last to the first, each with the words the half hands back. -/
theorem mixHalf_injective (x : Word) (n n' : RotAmount) : Function.Injective (mixHalf · x n n') := by
  rintro ⟨a, b, c, d⟩ ⟨a', b', c', d'⟩ h
  simp only [mixHalf, Mixed.mk.injEq, add32, xor32] at h
  obtain ⟨ha, hb, hc, hd⟩ := h
  rw [hc] at hb
  obtain rfl : b = b' := (BitVec.xor_left_inj _).1 (rotr32_injective n' hb)
  rw [hd] at hc
  obtain rfl : c = c' := (BitVec.add_left_inj _).1 hc
  rw [ha] at hd
  obtain rfl : d = d' := (BitVec.xor_left_inj _).1 (rotr32_injective n hd)
  obtain rfl : a = a' := by simpa using ha
  rfl

/-- There are finitely many quadruples of words. -/
theorem mixed_finite : Finite Mixed :=
  Finite.of_injective (fun q : Mixed => (q.a, q.b, q.c, q.d)) fun ⟨_, _, _, _⟩ ⟨_, _, _, _⟩ h => by simpa using h

/-- Settles O41: both halves of G are injective, and a quadruple of words has finitely many values. -/
theorem mixingFunctionIsBijective : Obligations.MixingFunctionIsBijective := by
  intro x y
  have : Finite Mixed := mixed_finite
  exact Finite.injective_iff_bijective.1 ((mixHalf_injective y .rot3 .rot4).comp (mixHalf_injective x .rot1 .rot2))

/-! ### The lanes of a round -/

/-- The four words of the working vector that application `i` reads and writes (R126). -/
def quadWords (v : Vector Word 16) (i : Fin 8) : Mixed :=
  ⟨v[quads[i].a], v[quads[i].b], v[quads[i].c], v[quads[i].d]⟩

/-- G with the message words of application `i` of round `r` (R126). -/
def mixLane (r : Fin 10) (m : Vector Word 16) (i : Fin 8) (q : Mixed) : Mixed :=
  mixG q.a q.b q.c q.d m[sigma[r][2 * i.val]] m[sigma[r][2 * i.val + 1]]

/-- Two different applications of the same half of a round: two columns or two diagonals. -/
abbrev OtherLane (i j : Fin 8) : Prop := i ≠ j ∧ (i.val < 4 ↔ j.val < 4)

/-- Different applications of one half of a round, in some order. -/
abbrev Lanes (order : List (Fin 8)) : Prop := order.Pairwise OtherLane

/-- Two vectors with the same four words in a quadruple. -/
theorem quadWords_eq_iff {v w : Vector Word 16} {i : Fin 8} :
    quadWords v i = quadWords w i ↔ ∀ k, InQuad i k → v[k] = w[k] := by
  simp [quadWords, InQuad]

section lanes
variable (r : Fin 10) (m : Vector Word 16)

/-- An application mixes the words of its own quadruple. -/
theorem quadWords_mixAt_self (v : Vector Word 16) (i : Fin 8) :
    quadWords (mixAt r m v i) i = mixLane r m i (quadWords v i) :=
  mixAt_own r m v i

/-- An application leaves the quadruples of the other lanes alone. -/
theorem quadWords_mixAt_other (v : Vector Word 16) {i j : Fin 8} (h : OtherLane i j) :
    quadWords (mixAt r m v j) i = quadWords v i :=
  quadWords_eq_iff.2 fun _ hk => mixAt_other r m v (quads_disjoint h.1 h.2 hk)

/-- So do any number of applications. -/
theorem quadWords_foldl_other {order : List (Fin 8)} (v : Vector Word 16) {i : Fin 8} (h : ∀ j ∈ order, OtherLane i j) :
    quadWords (order.foldl (mixAt r m) v) i = quadWords v i := by
  induction order generalizing v with
  | nil => rfl
  | cons j order ih =>
    obtain ⟨hj, horder⟩ := List.forall_mem_cons.1 h
    rw [List.foldl_cons, ih _ horder, quadWords_mixAt_other r m v hj]

/-- Lanes in any order: each quadruple is mixed once, from the words the vector held before them all. -/
theorem quadWords_foldl {order : List (Fin 8)} (v : Vector Word 16) {i : Fin 8} (hl : Lanes order) (hi : i ∈ order) :
    quadWords (order.foldl (mixAt r m) v) i = mixLane r m i (quadWords v i) := by
  induction order generalizing v with
  | nil => cases hi
  | cons j order ih =>
    obtain ⟨hj, horder⟩ := List.pairwise_cons.1 hl
    rw [List.foldl_cons]
    obtain rfl | hi := List.mem_cons.1 hi
    · rw [quadWords_foldl_other r m _ hj, quadWords_mixAt_self]
    · obtain ⟨hne, hhalf⟩ := hj i hi
      rw [ih _ horder hi, quadWords_mixAt_other r m v ⟨hne.symm, hhalf.symm⟩]

/-- The order of lanes that reach every word does not matter: it does not occur in what becomes of a quadruple. -/
theorem foldl_mixAt_perm {order half : List (Fin 8)} (v : Vector Word 16) (hp : order.Perm half) (hl : Lanes half)
    (hcover : ∀ k, ∃ i ∈ half, InQuad i k) : order.foldl (mixAt r m) v = half.foldl (mixAt r m) v := by
  have hl' : Lanes order := hl.perm hp.symm fun h => ⟨h.1.symm, h.2.symm⟩
  refine Vector.ext fun k hk => ?_
  obtain ⟨i, hi, hq⟩ := hcover ⟨k, hk⟩
  have hquad := (quadWords_foldl r m v hl' (hp.mem_iff.2 hi)).trans (quadWords_foldl r m v hl hi).symm
  exact quadWords_eq_iff.1 hquad _ hq

end lanes

/-- A round in its two halves. -/
theorem mixRound_halves (m v : Vector Word 16) (r : Fin 10) :
    mixRound m v r = [4, 5, 6, 7].foldl (mixAt r m) ([0, 1, 2, 3].foldl (mixAt r m) v) :=
  List.foldl_append (l := [0, 1, 2, 3]) (l' := [4, 5, 6, 7])

/-- Settles O43: the vector between the halves is what the columns leave. -/
theorem roundIsColumnsThenDiagonals : Obligations.RoundIsColumnsThenDiagonals := by
  intro r v m s hv hm
  have hround := exec_round r hv hm
  rw [mixRound_halves] at hround
  refine ⟨[0, 1, 2, 3].foldl (mixAt r m) v, _, hround, fun i hi => ?columns, fun i hi => ?diagonals⟩
  case columns => exact quadWords_foldl r m v (order := [0, 1, 2, 3]) (by decide) (by revert i; decide)
  case diagonals => exact quadWords_foldl r m _ (order := [4, 5, 6, 7]) (by decide) (by revert i; decide)

/-- Settles O44: the four columns reach every word, and so do the four diagonals. -/
theorem lanesRunInAnyOrder : Obligations.LanesRunInAnyOrder := by
  intro r m v order
  exact ⟨fun hp => foldl_mixAt_perm r m v hp (by decide) (by decide),
    fun hp => foldl_mixAt_perm r m v hp (by decide) (by decide)⟩

/-! ### COMPRESS -/

/-- Settles O45: FEEDFWD with the working vector at hand, word by word. -/
theorem feedForwardXorsBothHalves : Obligations.FeedForwardXorsBothHalves := by
  intro h v s hv
  exact ⟨_, exec_feedfwd h hv, fun i => by simp [feedForward, xor32]⟩

/-- COMPRESS of a block of 64 bytes. -/
theorem exec_compress (h : Vector Word 8) {block : List Byte} (t0 t1 f0 f1 : Word) (s : State) (hlen : block.length = 64) :
    exec (.compress h block t0 t1 f0 f1) s = .next { s with
      v := none, m := none, ret := some (.words (compressBlock h (byteVector 64 block) t0 t1 f0 f1)) } := by
  simp only [exec, execCompress, blockOf_some hlen, State.endCompression]

/-- An instruction that goes on is run first, and the rest in the state it leaves. -/
theorem runAll_cons {i : Instr} {is : List Instr} {s t : State} (h : exec i s = .next t) : runAll (i :: is) s = runAll is t := by
  rw [runAll, h]

/-- Rounds issued one after another. -/
theorem runAll_rounds (rs : List (Fin 10)) {s : State} {v m : Vector Word 16} (hv : s.v = some v) (hm : s.m = some m) :
    runAll (rs.map .round) s = .next { s with v := some (rs.foldl (mixRound m) v) } := by
  induction rs generalizing s v with
  | nil => rw [List.foldl_nil, ← hv]; rfl
  | cons r rs ih =>
    rw [List.map_cons, List.foldl_cons, runAll_cons (exec_round r hv hm)]
    exact ih (s := { s with v := some (mixRound m v r) }) rfl hm

/-- Settles O47: MSGLOAD and VINIT set the transients up, the rounds work on them, FEEDFWD reads them out and ends them. -/
theorem compressIsItsMicroOperations : Obligations.CompressIsItsMicroOperations := by
  intro h block t0 t1 f0 f1 s hlen
  refine ⟨_, rfl, exec_compress h t0 t1 f0 f1 s hlen, ?_⟩
  have hrounds := runAll_rounds [0, 1, 2, 3, 4, 5, 6, 7, 8, 9]
    (s := { s with m := some (msgWords (byteVector 64 block)), v := some (initVector h t0 t1 f0 f1) }) rfl rfl
  rw [compressOps, roundOps, runAll_cons (exec_msgload s hlen), runAll_cons (exec_vinit h t0 t1 f0 f1 _),
    runAll_append hrounds, runAll_cons (exec_feedfwd h rfl), runAll, compressBlock, mixRounds]

end Sys2Proof.Machine
end

section
/-! PROOFS for the family 43_finalize.md: PAD (R140), EXTRACT (R142), FINAL and what follows a FINAL (R141, R143), the
size queries (R144, R145), and RESET (R146). -/

namespace Sys2Proof.Machine

/-! ### PAD and EXTRACT -/

/-- PAD, once the block is padded. -/
theorem exec_pad {s : State} {b : Vector Byte 64} (h : s.live.pad = .ok b) :
    exec .pad s = .next { s with ret := some (.block b) } := by
  simp only [exec, execPad, h]

/-- Byte `i` of the padded block: a pending byte below the fill, 0 from there on. -/
theorem Live.pad_getElem {l : Live} {b : Vector Byte 64} (hf : l.fillOk) (h : l.pad = .ok b) (i : Fin 64) :
    b[i] = if i.val < l.buflen.toNat then l.buf.read i.val else 0 := by
  obtain rfl := Except.ok.inj ((Live.pad_ok hf).symm.trans h)
  simp

/-- Settles O48: with the fill in range PAD answers, byte by byte as `pad_getElem` says. -/
theorem padFillsWithZeros : Obligations.PadFillsWithZeros := by
  intro s hfill
  have hpad := Live.pad_ok hfill
  exact ⟨_, exec_pad hpad, Live.pad_getElem hfill hpad⟩

/-- Settles O49: with `outlen` at most 32 there are as many state bytes as EXTRACT takes. -/
theorem extractTakesLittleEndianBytes : Obligations.ExtractTakesLittleEndianBytes := by
  intro h outlen s _ hmax
  have hlen : (extractBytes h outlen).length = outlen.toNat := by rw [extractBytes_length, Nat.min_eq_left hmax]
  exact ⟨_, rfl, hlen, fun j hj => extractBytes_getElem? h j hj⟩

/-! ### FINAL -/

/-- FINAL with an engine whose live flag is clear, once the digest is computed. -/
theorem exec_final {s : State} {d : List Byte} (hs : s.st = .ready) (hf0 : s.live.f0 = 0) (hd : s.live.digest = .ok d) :
    exec .final s = .next (s.endTransients.respond (.bytes d)) := by
  simp only [exec, execFinal, dispatch_ready hs, runFinal, hd, hf0, ne_eq, not_true_eq_false, if_false]

/-- FINAL with an engine whose live flag is set. -/
theorem exec_final_flagged {s : State} (hs : s.st = .ready) (hf0 : s.live.f0 ≠ 0) :
    exec .final s = .next (raiseError .finalFlag s) := by
  simp only [exec, execFinal, dispatch_ready hs, runFinal, if_pos hf0]

/-- The counter of the scratch copy counts the pending bytes (R141 step 4). -/
theorem Live.scratch_counter (l : Live) (blk : Vector Byte 64) :
    counterValue (l.scratch blk).t0 (l.scratch blk).t1 = (l.counter + l.buflen.toNat) % 2 ^ 64 := by
  have hfill : (l.buflen.setWidth 32).toNat = l.buflen.toNat := BitVec.toNat_setWidth_of_le (by omega)
  rw [← hfill]
  exact counterAdd_value l.t0 l.t1 _

/-- Settles O50: the digest is that of the scratch copy. -/
theorem finalAnswersDigestOfLastBlock : Obligations.FinalAnswersDigestOfLastBlock := by
  intro s hs hfill hf0
  obtain ⟨blk, hpad, hdigest⟩ := Live.digest_ok hfill
  refine ⟨blk, _, _, _, exec_final hs hf0 hdigest, Live.pad_getElem hfill hpad, Live.scratch_counter s.live blk, ?_⟩
  rw [extractBytes, stateBytes_eq]
  rfl

/-- Settles O51: F_FINALFLAG is a fatal error. -/
theorem finalGuardsTheLiveFlag : Obligations.FinalGuardsTheLiveFlag := by
  intro s hs hf0
  rw [exec_final_flagged hs hf0, raiseError_fatal s rfl]
  rfl

/-! ### FINAL, APPEND and FINAL again -/

/-- APPEND and then FINAL: the digest is that of the live registers APPEND leaves. -/
theorem runAll_append_final {data : List Byte} {s : State} {l : Live} {d : List Byte} (hs : s.st = .ready)
    (hl : s.live.absorb data = .ok l) (hf0 : l.f0 = 0) (hd : l.digest = .ok d) :
    runAll [.append data, .final] s =
      .next ((({ s with live := l }).endTransients.respond (.count data.length)).endTransients.respond (.bytes d)) := by
  rw [runAll_cons (exec_append hs hl)]
  exact runAll_cons (exec_final hs hf0 hd)

/-- A FINAL before them changes neither what they do to the live registers nor their answers: it writes no live register
and leaves the engine READY (R116). -/
theorem runAll_final_append_final {data : List Byte} {s : State} {l : Live} {d d' : List Byte} (hs : s.st = .ready)
    (hf0 : s.live.f0 = 0) (hd : s.live.digest = .ok d) (hl : s.live.absorb data = .ok l) (hf0' : l.f0 = 0)
    (hd' : l.digest = .ok d') : ∃ t, runAll [.final, .append data, .final] s = .next t ∧ t.live = l ∧ t.st = .ready ∧
      t.output = s.output ++ (Response.bytes d).frame ++ (Response.count data.length).frame ++ (Response.bytes d').frame := by
  have hrest := runAll_append_final (s := s.endTransients.respond (.bytes d)) hs hl hf0' hd'
  exact ⟨_, (runAll_cons (exec_final hs hf0 hd)).trans hrest, rfl, hs, rfl⟩

/-- Settles O52: the empty APPEND leaves the live registers, so the second FINAL finds those of the first. -/
theorem finalIsIdempotent : Obligations.FinalIsIdempotent := by
  intro s hs hfill hf0
  obtain ⟨blk, -, hd⟩ := Live.digest_ok hfill
  obtain ⟨t, hrun, hlive, hready, hout⟩ := runAll_final_append_final hs hf0 hd (Live.absorb_nil s.live) hf0 hd
  exact ⟨_, t, hrun, hlive, hready.trans hs.symm, hout⟩

/-- Settles O53: the APPEND finds the same live registers with the FINAL before it as without. -/
theorem finalDoesNotEndTheMessage : Obligations.FinalDoesNotEndTheMessage := by
  intro data s hs hfill hf0
  obtain ⟨l, hl, hfill', hflag, -⟩ := Live.absorb_ok data hfill
  have hf0' : l.f0 = 0 := hflag.trans hf0
  obtain ⟨blk, -, hd⟩ := Live.digest_ok hfill
  obtain ⟨blk', -, hd'⟩ := Live.digest_ok hfill'
  obtain ⟨t, hrun, hlive, -, hout⟩ := runAll_final_append_final hs hf0 hd hl hf0' hd'
  exact ⟨_, _, t, _, hrun, runAll_append_final hs hl hf0' hd', hlive, hout, rfl⟩

/-! ### HASH -/

/-- A new engine holds the output length it was constructed with. -/
theorem Live.construct_outlen (l : Live) {outlen : Int} {key salt pers : List Byte}
    (h : ValidOperands outlen key salt pers) : ((l.construct outlen key salt pers).outlen.toNat : Int) = outlen := by
  obtain ⟨hpos, hmax, -⟩ := h
  rw [Live.construct, BitVec.toNat_ofInt]
  omega

/-- HASH answers last the digest of the new engine once that has absorbed the key input and the joined pieces. -/
theorem runAll_hashCommands {outlen : Int} {key salt pers : List Byte} {pieces : List (List Byte)} {s : State} {l : Live}
    {d : List Byte} (hs : s.st ≠ .faulted) (hv : ValidOperands outlen key salt pers)
    (hl : (s.live.construct outlen key salt pers).absorb (keyInput key ++ pieces.flatten) = .ok l)
    (hd : l.digest = .ok d) : ∃ (before : List Byte) (t : State),
      runAll (hashCommands outlen key salt pers pieces) s = .next t ∧ t.output = before ++ (Response.bytes d).frame := by
  have hf0 : l.f0 = 0 := ((s.live.construct_engineOk hv).absorb hl).f0_zero
  obtain ⟨l1, hkey, hdata⟩ := Live.absorb_split hl
  obtain ⟨l2, hinput, hinit⟩ := exec_init_valid hs hv
  obtain rfl := Except.ok.inj (hkey.symm.trans hinput)
  obtain ⟨t, hrun, rfl, hready⟩ := runAll_appendPieces pieces
    (s := ({ s with live := l1, st := .ready }).endTransients.respond .ok) rfl hdata
  refine ⟨t.output, t.endTransients.respond (.bytes d), ?_, rfl⟩
  rw [hashCommands, runAll_cons hinit, runAll_append hrun, runAll_cons (exec_final hready hf0 hd), runAll]

/-- Settles O54: the two new engines are alike and absorb the same bytes, so their digests are equal. -/
theorem hashDoesNotDependOnTheSplit : Obligations.HashDoesNotDependOnTheSplit := by
  intro outlen key salt pers pieces pieces' s s' hs hs' hwf hwf' hv hflatten
  have hengine := s.live.construct_engineOk hv
  obtain ⟨l, hl, hfill, -, -, hout⟩ := Live.absorb_ok (keyInput key ++ pieces.flatten) hengine.fill
  obtain ⟨l', hl', halike⟩ := (Live.construct_alike hwf hwf' outlen key salt pers).absorb hl
  obtain ⟨blk, -, hd⟩ := Live.digest_ok hfill
  obtain ⟨before, t, hrun, hanswer⟩ := runAll_hashCommands hs hv hl hd
  obtain ⟨before', t', hrun', hanswer'⟩ := runAll_hashCommands hs' hv (hflatten ▸ hl')
    ((Live.digest_agree halike.agree hfill).symm.trans hd)
  refine ⟨_, before, before', t, t', hrun, hrun', hanswer, hanswer', ?_⟩
  rw [extractBytes_length, hout, Nat.min_eq_left hengine.outlen_max, Live.construct_outlen s.live hv]

/-! ### The size queries and RESET -/

/-- BLKSZ with an engine. -/
theorem exec_blksz {s : State} (hs : s.st = .ready) : exec .blksz s = .next (s.respond (.size 64)) := by
  simp only [exec, execBlksz, dispatch_ready hs]

/-- OUTSZ with an engine. -/
theorem exec_outsz {s : State} (hs : s.st = .ready) : exec .outsz s = .next (s.respond (.size s.live.outlen.toNat)) := by
  simp only [exec, execOutsz, dispatch_ready hs]

/-- RESET with an engine. -/
theorem exec_reset {s : State} (hs : s.st = .ready) : exec .reset s = .next (raiseError .unsupported s) := by
  simp only [exec, execReset, dispatch_ready hs]

/-- RESET without an engine. -/
theorem exec_reset_empty {s : State} (hs : s.st = .empty) : exec .reset s = .next (raiseError .notReady s) := by
  simp only [exec, execReset, dispatch_empty hs]

/-- Settles O56: a size is sent as one byte, and `outlen` has six bits. -/
theorem sizeQueriesAnswer : Obligations.SizeQueriesAnswer := by
  intro s hs
  have hout : byteOf s.live.outlen.toNat = s.live.outlen.setWidth 8 := BitVec.ofNat_toNat ..
  refine ⟨exec_blksz hs, ?_⟩
  rw [exec_outsz hs, ← hout]
  rfl

/-- Settles O57: E_UNSUPPORTED is a fatal error and E_NOTREADY is not. -/
theorem resetCommandSignalsUnsupported : Obligations.ResetCommandSignalsUnsupported := by
  refine ⟨fun s hs => ?ready, fun s hs => ?empty⟩
  case ready =>
    rw [exec_reset hs, raiseError_fatal s rfl]
    rfl
  case empty =>
    rw [exec_reset_empty hs, raiseError_nonfatal s rfl]
    rfl

end Sys2Proof.Machine
end

section
/-! PROOFS for the family 60_exceptions.md: the order of dispatch (R153) while FAULTED and while EMPTY, and FAULTED along
runs (R159). -/

namespace Sys2Proof.Machine

/-! ### Every command goes through dispatch -/

/-- A command is a dispatch, and the only one that needs no engine is INIT. -/
theorem exec_eq_dispatch {i : Instr} (hc : i.isCommand = true) :
    ∃ needs run, (∀ s, exec i s = dispatch needs s run) ∧
      (needs = true ∨ ∃ outlen key salt pers, i = .init outlen key salt pers) := by
  cases i
  case init outlen key salt pers => exact ⟨false, _, fun _ => rfl, .inr ⟨outlen, key, salt, pers, rfl⟩⟩
  case append | final => exact ⟨true, _, fun _ => rfl, .inl rfl⟩
  case blksz => exact ⟨true, _, fun _ => by rw [exec, execBlksz], .inl rfl⟩
  case outsz => exact ⟨true, _, fun _ => by rw [exec, execOutsz], .inl rfl⟩
  case reset => exact ⟨true, _, fun _ => by rw [exec, execReset], .inl rfl⟩
  all_goals cases hc

/-- Settles O9: dispatch looks at FAULTED first, and E_FAULTED is not a fatal error. -/
theorem faultedEngineAnswersOnlyFaulted : Obligations.FaultedEngineAnswersOnlyFaulted := by
  intro i s hc hs
  obtain ⟨needs, run, hexec, -⟩ := exec_eq_dispatch hc
  rw [hexec, dispatch_faulted hs, raiseError_nonfatal s rfl]
  rfl

/-- Settles O10: a command other than INIT needs an engine, and E_NOTREADY is not a fatal error. -/
theorem emptyEngineAnswersNotReady : Obligations.EmptyEngineAnswersNotReady := by
  intro i s hc hinit hs
  obtain ⟨needs, run, hexec, rfl | ⟨outlen, key, salt, pers, hi⟩⟩ := exec_eq_dispatch hc
  · rw [hexec, dispatch_empty hs, raiseError_nonfatal s rfl]
    rfl
  · exact absurd hi (hinit outlen key salt pers)

/-! ### FAULTED along runs -/

/-- While FAULTED a step that goes on takes the port and answers E_FAULTED, for a command as for an illegal opcode byte. -/
theorem step_faulted {s t : State} (hseq : s.seq = none) (hs : s.st = .faulted) (ht : step s = .next t) :
    t = s.taken.respond (.err .faulted) := by
  have hs' : s.taken.st = .faulted := s.taken_st.trans hs
  obtain ⟨i, hd, hc, -⟩ | ⟨b, code, hd, -, -⟩ := step_idle_next hseq ht
  · rw [step_of_command hseq hd, faultedEngineAnswersOnlyFaulted i _ hc hs'] at ht
    cases ht
    rfl
  · rw [step_of_illegal hseq hd, illegalOpcode_answer, if_pos hs'] at ht
    cases ht
    rfl

/-- A run that goes on is one step that goes on and a run from there. -/
theorem run_succ_next {M : Host.Core} {n : Nat} {s t : M.State} (h : M.run (n + 1) s = .next t) :
    ∃ u, M.step s = .next u ∧ M.run n u = .next t := by
  unfold Host.Core.run at h
  split at h
  case h_1 u hu => exact ⟨u, hu, h⟩
  all_goals cases h

/-- Settles O11, by induction on the number of steps: each leaves `st`, the live registers and the idle sequencer. -/
theorem faultedIsStickyAlongRuns : Obligations.FaultedIsStickyAlongRuns := by
  intro n s t hseq hs hrun
  induction n generalizing s with
  | zero =>
    cases hrun
    exact ⟨hs, rfl, hseq⟩
  | succ n ih =>
    obtain ⟨u, hstep, hrest⟩ := run_succ_next hrun
    obtain rfl := step_faulted hseq hs hstep
    obtain ⟨hst, hlive, hidle⟩ :=
      ih (s.taken.respond (.err .faulted)) (s.taken_seq.trans hseq) (s.taken_st.trans hs) hrest
    exact ⟨hst, hlive.trans s.taken_live, hidle⟩

end Sys2Proof.Machine
end

section
/-! PROOFS for the family 70_reset_and_hazards.md: the state after power-on (R175) meets the invariant (R41). -/

namespace Sys2Proof.Machine

/-- After power-on the registers are unspecified (R175): whatever they hold, with any contents of BUF in the model's
canonical form, the invariant holds, because it asks for an engine only in READY. -/
theorem State.reset_withLive_inv {l : Live} (hbuf : l.buf.wf = true) : State.Inv { State.reset with live := l } where
  idle := rfl
  no_pb := rfl
  no_v := rfl
  no_m := rfl
  no_ret := rfl
  buf_wf := hbuf
  engine := nofun

/-- Settles O14: the power-on state with the registers the model names, whose BUF lists no cell. -/
theorem resetMeetsInvariant : Obligations.ResetMeetsInvariant :=
  have hbuf : Live.reset.buf.wf = true := rfl
  ⟨State.reset_withLive_inv hbuf, rfl⟩

end Sys2Proof.Machine
end
